-- ==== Sys2Proof/Config.lean ====
section
/-! DEFINITION. What a build fixes (spec 00_scope.md R7) and the free values of the environment
(60_exceptions.md R91). Every constant here that has no body is free: no proof can see its value. -/

namespace Sys2Proof

/-- The build-time parameters of R7. A record of plain numbers: whether they are legal is `Build.wf`. -/
structure Build where
  nWait : Nat
  nDeb : Nat
  wWait : Nat
  wDeb : Nat
  portW : Nat
  deriving DecidableEq, Repr

/-- The least width `w >= 1` with `2 ^ w >= n`, for `n >= 1` (the constraint of R7 on a counter's width). -/
def widthFor (n : Nat) : Nat := Nat.log2 (n - 1) + 1

/-- `N_WAIT - 1` of the build that `State.reset` runs: OPEN (R7, D5). DESIGN CHOICE, log entry 2; safe. -/
opaque Config.nWaitPred : Nat

/-- `N_DEB - 1` of the build that `State.reset` runs: OPEN (R7, D6). DESIGN CHOICE, log entry 2; safe. -/
opaque Config.nDebPred : Nat

/-- How many bits the wait counter has above the least legal width: OPEN (R7, D11). -/
opaque Config.wWaitSpare : Nat

/-- How many bits the debounce counter has above the least legal width: OPEN (R7, D11). -/
opaque Config.wDebSpare : Nat

/-- `PORT_W - 7`: OPEN (R7, D12). -/
opaque Config.portSpare : Nat

/-- The build that `State.reset` runs: any build that meets R7, no numeric value assumed (D5).
DESIGN CHOICE, log entry 2; safe: every legal build is one value of the opaque constants. -/
def Config.build : Build where
  nWait := Config.nWaitPred + 1
  nDeb := Config.nDebPred + 1
  wWait := widthFor (Config.nWaitPred + 1) + Config.wWaitSpare
  wDeb := widthFor (Config.nDebPred + 1) + Config.wDebSpare
  portW := 7 + Config.portSpare

/-- The reset input in a cycle for which no stimulus is queued: a free value (R91).
DESIGN CHOICE, log entry 1; safe. -/
opaque Config.freeRst : Nat → Bool

/-- The button input in a cycle for which no stimulus is queued: a free value, "one value per cycle with no
law" (R111). DESIGN CHOICE, log entry 1; safe. -/
opaque Config.freeBtn : Nat → Bool

/-- The value the other logic drives on the wider port (R89) in a cycle for which none is queued: a free
value. DESIGN CHOICE, log entry 1; safe. -/
opaque Config.freeOther : Nat → Nat

end Sys2Proof
end

