-- ==== Sys2Proof/Word.lean ====
section
/-! DEFINITION. The word types of seg7_counter and the names of the segment bits (spec 00_scope.md R7, R9;
20_memory.md R33). -/

namespace Sys2Proof

/-- The 4-bit digit register, and the 4-bit ROM address (R7, R30). -/
abbrev Digit := BitVec 4

/-- A 7-bit segment value: a lit pattern, or the drive value on `seg_n` (R13, R26). -/
abbrev Pattern := BitVec 7

/-- The 7-bit condition word `r s s b p w d` (R45). -/
abbrev CondWord := BitVec 7

/-- The seven segments (R33). -/
inductive Segment where
  | a | b | c | d | e | f | g
  deriving DecidableEq, Repr

/-- The bit of a pattern that belongs to a segment: bit 0 is segment a, bit 6 is segment g (R33). -/
def Segment.bit : Segment → Nat
  | .a => 0
  | .b => 1
  | .c => 2
  | .d => 3
  | .e => 4
  | .f => 5
  | .g => 6

/-- A lit pattern stores a 1 for a lit segment (R53). -/
def isLit (p : Pattern) (x : Segment) : Bool := p.getLsbD x.bit

end Sys2Proof
end

