-- ==== Sys2Proof/Syntax.lean ====
section
/-! DEFINITION. The operations of seg7_counter (spec/opcode_table.json, one constructor a row), the FSM states,
and the stimulus notation of 30_encoding.md R51. -/

namespace Sys2Proof

/-- The values of the 2-bit `state` register, all four legal (R18). -/
inductive Fsm where
  | idle | confirming | advanceEarly | advancePeriod
  deriving DecidableEq, Repr

/-- The two formats (R43). `RENDER` and `PORT_MERGE` have none: they are always active. -/
inductive Format where
  | romAddr | condWord
  deriving DecidableEq, Repr

/-- The operations, one constructor per row of spec/opcode_table.json. The operands of a transition are the bits
its pattern of R47 leaves free, under the field letters of R45: `s` the state, `b` the button, `p` the
previous sample, `w` = `wlast`, `d` = `dlast`. -/
inductive Instr where
  /-- `RESET`, `1ssbpwd` (R106). -/
  | reset (s : Fsm) (b p w d : Bool)
  /-- `T_IDLE_LOW`, `0000pwd` (R72). -/
  | tIdleLow (p w d : Bool)
  /-- `T_IDLE_HELD`, `00011wd` (R73). -/
  | tIdleHeld (w d : Bool)
  /-- `T_IDLE_EDGE`, `00010wd` (R74). -/
  | tIdleEdge (w d : Bool)
  /-- `T_CONF_WAIT`, `001bpw0` (R75). -/
  | tConfWait (b p w : Bool)
  /-- `T_CONF_PASS`, `0011pw1` (R76). -/
  | tConfPass (p w : Bool)
  /-- `T_CONF_NOISE`, `0010pw1` (R77). -/
  | tConfNoise (p w : Bool)
  /-- `T_ADV_EARLY`, `010bpwd` (R78). -/
  | tAdvEarly (b p w d : Bool)
  /-- `T_ADV_PERIOD`, `011bpwd` (R79). -/
  | tAdvPeriod (b p w d : Bool)
  /-- `SEG_0`, address 0 (R55). -/
  | seg0
  /-- `SEG_1`, address 1 (R56). -/
  | seg1
  /-- `SEG_2`, address 2 (R57). -/
  | seg2
  /-- `SEG_3`, address 3 (R58). -/
  | seg3
  /-- `SEG_4`, address 4 (R59). -/
  | seg4
  /-- `SEG_5`, address 5 (R60). -/
  | seg5
  /-- `SEG_6`, address 6 (R61). -/
  | seg6
  /-- `SEG_7`, address 7 (R62). -/
  | seg7
  /-- `SEG_8`, address 8 (R63). -/
  | seg8
  /-- `SEG_9`, address 9 (R64). -/
  | seg9
  /-- `ROM_OOD_A`, address 10 (R65). -/
  | romOodA
  /-- `ROM_OOD_B`, address 11 (R65). -/
  | romOodB
  /-- `ROM_OOD_C`, address 12 (R65). -/
  | romOodC
  /-- `ROM_OOD_D`, address 13 (R65). -/
  | romOodD
  /-- `ROM_OOD_E`, address 14 (R65). -/
  | romOodE
  /-- `ROM_OOD_F`, address 15 (R65). -/
  | romOodF
  /-- `RENDER`, always active, reads the `digit` register (R86). -/
  | render
  /-- `PORT_MERGE`, always active, reads `seg_n` and `other` (R89). -/
  | portMerge
  deriving DecidableEq, Repr

/-- The row's mnemonic in spec/opcode_table.json. -/
def Instr.mnemonic : Instr → String
  | .reset .. => "RESET"
  | .tIdleLow .. => "T_IDLE_LOW"
  | .tIdleHeld .. => "T_IDLE_HELD"
  | .tIdleEdge .. => "T_IDLE_EDGE"
  | .tConfWait .. => "T_CONF_WAIT"
  | .tConfPass .. => "T_CONF_PASS"
  | .tConfNoise .. => "T_CONF_NOISE"
  | .tAdvEarly .. => "T_ADV_EARLY"
  | .tAdvPeriod .. => "T_ADV_PERIOD"
  | .seg0 => "SEG_0"
  | .seg1 => "SEG_1"
  | .seg2 => "SEG_2"
  | .seg3 => "SEG_3"
  | .seg4 => "SEG_4"
  | .seg5 => "SEG_5"
  | .seg6 => "SEG_6"
  | .seg7 => "SEG_7"
  | .seg8 => "SEG_8"
  | .seg9 => "SEG_9"
  | .romOodA => "ROM_OOD_A"
  | .romOodB => "ROM_OOD_B"
  | .romOodC => "ROM_OOD_C"
  | .romOodD => "ROM_OOD_D"
  | .romOodE => "ROM_OOD_E"
  | .romOodF => "ROM_OOD_F"
  | .render => "RENDER"
  | .portMerge => "PORT_MERGE"

/-- The inputs `rst` and `btn` of one clock cycle: one word of an encoded stimulus program (R51). -/
structure Stim where
  rst : Bool
  btn : Bool
  deriving DecidableEq, Repr

/-- The statements of the stimulus notation that take cycles, and its pseudo-statements (R51). -/
inductive Stmt where
  | rst
  | b0
  | b1
  | rst1
  | b0x (k : Nat)
  | b1x (k : Nat)
  | idle (k : Nat)
  | hold (k : Nat)
  | boot
  deriving DecidableEq, Repr

/-- A stimulus program: `PARAM N_WAIT=n N_DEB=m` and the statements after it (R51). -/
structure StimProgram where
  nWait : Nat
  nDeb : Nat
  body : List Stmt
  deriving DecidableEq, Repr

end Sys2Proof
end

