-- ==== Sys2Proof/WellFormed.lean ====
section
/-! DEFINITION. What is well-formed: a build (spec 00_scope.md R7, 60_exceptions.md R105), a stimulus program
(30_encoding.md R51), and an operation that has an encoding (30_encoding.md R43). The operands of `Instr` are
typed by the fields of R45, all of whose values are legal (R49), so no operand can be ill-formed. -/

namespace Sys2Proof

/-- `N_WAIT >= 1` (R7). -/
def Build.nWaitOk (b : Build) : Bool := decide (1 ≤ b.nWait)

/-- `N_DEB >= 1` (R7). -/
def Build.nDebOk (b : Build) : Bool := decide (1 ≤ b.nDeb)

/-- `2 ^ W_WAIT >= N_WAIT` and `W_WAIT >= 1` (R7). -/
def Build.wWaitOk (b : Build) : Bool := decide (b.nWait ≤ 2 ^ b.wWait) && decide (1 ≤ b.wWait)

/-- `2 ^ W_DEB >= N_DEB` and `W_DEB >= 1` (R7). -/
def Build.wDebOk (b : Build) : Bool := decide (b.nDeb ≤ 2 ^ b.wDeb) && decide (1 ≤ b.wDeb)

/-- `PORT_W >= 7` (R7). -/
def Build.portWOk (b : Build) : Bool := decide (7 ≤ b.portW)

/-- A build that meets every constraint of R7. A build that breaks one is refused (R105). -/
def Build.wf (b : Build) : Bool :=
  b.nWaitOk && b.nDebOk && b.wWaitOk && b.wDebOk && b.portWOk

/-- The operations that a word of one of the two formats selects: all but `RENDER` and `PORT_MERGE`, which
"are not selected by any field" (R43). -/
def Instr.hasWord : Instr → Bool
  | .reset .. | .tIdleLow .. | .tIdleHeld .. | .tIdleEdge .. | .tConfWait ..
  | .tConfPass .. | .tConfNoise .. | .tAdvEarly .. | .tAdvPeriod ..
  | .seg0 | .seg1 | .seg2 | .seg3 | .seg4 | .seg5 | .seg6 | .seg7 | .seg8 | .seg9
  | .romOodA | .romOodB | .romOodC | .romOodD | .romOodE | .romOodF => true
  | .render | .portMerge => false

/-- A stimulus program fixes legal lengths (R51, R7). -/
def StimProgram.wf (p : StimProgram) : Bool := decide (1 ≤ p.nWait) && decide (1 ≤ p.nDeb)

end Sys2Proof
end

