-- ==== Sys2Proof/Decode.lean ====
section
/-! DEFINITION. The two decoders (spec 30_encoding.md R45, R47, R48), total on every word; the raw-byte decoder,
which rejects by name; the encoder; and the rows of the operation map as masks and patterns. -/

namespace Sys2Proof

/-- The 2-bit code of an FSM state (R18). -/
def Fsm.code : Fsm → BitVec 2
  | .idle => 0b00#2
  | .confirming => 0b01#2
  | .advanceEarly => 0b10#2
  | .advancePeriod => 0b11#2

/-- The FSM state of the two bits `hi`, `lo` of a code; all four are legal (R18). -/
def Fsm.ofBits (hi lo : Bool) : Fsm :=
  match hi, lo with
  | false, false => .idle
  | false, true => .confirming
  | true, false => .advanceEarly
  | true, true => .advancePeriod

/-- The condition word `{r, s, b, p, w, d}`, bit 6 first (R45). -/
def packCond (r : Bool) (s : Fsm) (b p w d : Bool) : CondWord :=
  BitVec.ofBool r ++ s.code ++ BitVec.ofBool b ++ BitVec.ofBool p ++ BitVec.ofBool w ++ BitVec.ofBool d

/-- The transition that the fields of a condition word select (R47). -/
def selectRow (r : Bool) (s : Fsm) (b p w d : Bool) : Instr :=
  if r then .reset s b p w d
  else
    match s with
    | .idle => if b then (if p then .tIdleHeld w d else .tIdleEdge w d) else .tIdleLow p w d
    | .confirming => if d then (if b then .tConfPass p w else .tConfNoise p w) else .tConfWait b p w
    | .advanceEarly => .tAdvEarly b p w d
    | .advancePeriod => .tAdvPeriod b p w d

/-- The `cond_word` decoder: each of the 128 words selects exactly one transition (R47). -/
def decodeCond (c : CondWord) : Instr :=
  selectRow (c.getLsbD 6) (Fsm.ofBits (c.getLsbD 5) (c.getLsbD 4)) (c.getLsbD 3) (c.getLsbD 2) (c.getLsbD 1)
    (c.getLsbD 0)

/-- The `rom_addr` decoder: each of the 16 addresses selects one row (R48). -/
def decodeRom (d : Digit) : Instr :=
  match d.toNat with
  | 0 => .seg0
  | 1 => .seg1
  | 2 => .seg2
  | 3 => .seg3
  | 4 => .seg4
  | 5 => .seg5
  | 6 => .seg6
  | 7 => .seg7
  | 8 => .seg8
  | 9 => .seg9
  | 10 => .romOodA
  | 11 => .romOodB
  | 12 => .romOodC
  | 13 => .romOodD
  | 14 => .romOodE
  | _ => .romOodF

/-- A word of one of the two formats (R43). -/
inductive EncWord where
  | romAddr (d : Digit)
  | condWord (c : CondWord)
  deriving DecidableEq, Repr

/-- The decoder of a word whose format is known: total, nothing is reserved (R47, R48, R49). -/
def decode : EncWord → Instr
  | .romAddr d => decodeRom d
  | .condWord c => decodeCond c

/-- The word that selects an operation; none for the two continuous rows (R43, R45, R47, R48). -/
def encode : Instr → Option EncWord
  | .reset s b p w d => some (.condWord (packCond true s b p w d))
  | .tIdleLow p w d => some (.condWord (packCond false .idle false p w d))
  | .tIdleHeld w d => some (.condWord (packCond false .idle true true w d))
  | .tIdleEdge w d => some (.condWord (packCond false .idle true false w d))
  | .tConfWait b p w => some (.condWord (packCond false .confirming b p w false))
  | .tConfPass p w => some (.condWord (packCond false .confirming true p w true))
  | .tConfNoise p w => some (.condWord (packCond false .confirming false p w true))
  | .tAdvEarly b p w d => some (.condWord (packCond false .advanceEarly b p w d))
  | .tAdvPeriod b p w d => some (.condWord (packCond false .advancePeriod b p w d))
  | .seg0 => some (.romAddr 0x0#4)
  | .seg1 => some (.romAddr 0x1#4)
  | .seg2 => some (.romAddr 0x2#4)
  | .seg3 => some (.romAddr 0x3#4)
  | .seg4 => some (.romAddr 0x4#4)
  | .seg5 => some (.romAddr 0x5#4)
  | .seg6 => some (.romAddr 0x6#4)
  | .seg7 => some (.romAddr 0x7#4)
  | .seg8 => some (.romAddr 0x8#4)
  | .seg9 => some (.romAddr 0x9#4)
  | .romOodA => some (.romAddr 0xA#4)
  | .romOodB => some (.romAddr 0xB#4)
  | .romOodC => some (.romAddr 0xC#4)
  | .romOodD => some (.romAddr 0xD#4)
  | .romOodE => some (.romAddr 0xE#4)
  | .romOodF => some (.romAddr 0xF#4)
  | .render => none
  | .portMerge => none

/-- Why a raw byte is no word of a format. -/
inductive DecodeError where
  /-- A byte of 16 or more has no 4-bit ROM address (R44). Safe: nothing is run. -/
  | romAddrTooWide
  /-- A byte of 128 or more has no 7-bit condition word (R45). Safe: nothing is run. -/
  | condWordTooWide
  deriving DecidableEq, Repr

/-- Decode a raw byte in a given format, rejecting by name a byte with bits above the format's width (R43, R50). -/
def decodeByte (f : Format) (b : BitVec 8) : Except DecodeError Instr :=
  match f with
  | .romAddr =>
    if b.toNat < 16 then .ok (decode (.romAddr (BitVec.ofNat 4 b.toNat))) else .error .romAddrTooWide
  | .condWord =>
    if b.toNat < 128 then .ok (decode (.condWord (BitVec.ofNat 7 b.toNat))) else .error .condWordTooWide

/-- The operation that a word of the opcode table's numbering stands for. A caller that gives a format's exact
width (4 or 7) chooses the format. Rounded up to whole bytes the two formats cannot be told apart; then a word
below 16 is read as a ROM address and a larger one as a condition word.
DESIGN CHOICE, log entry 9; safe: the machine decodes through `decodeCond` and `decodeRom`, never through this. -/
def decodeTableWord (nbits w : Nat) : Option Instr :=
  if nbits = 7 then (if w < 128 then some (decodeCond (BitVec.ofNat 7 w)) else none)
  else if w < 16 then some (decodeRom (BitVec.ofNat 4 w))
  else if nbits ≠ 4 ∧ w < 128 then some (decodeCond (BitVec.ofNat 7 w))
  else none

/-- A row of the operation map: `(word & mask) == match` selects it (R47, R48). -/
structure Row where
  mnemonic : String
  format : Format
  value : Nat
  mask : Nat
  deriving DecidableEq, Repr

/-- Whether a word of a format selects a row (R47). -/
def Row.selects (r : Row) (f : Format) (w : Nat) : Bool := decide (r.format = f) && (w &&& r.mask == r.value)

/-- The nine rows of R47, `match` and `mask` as the spec prints them. -/
def condRows : List Row :=
  [⟨"RESET", .condWord, 0x40, 0x40⟩, ⟨"T_IDLE_LOW", .condWord, 0x00, 0x78⟩,
   ⟨"T_IDLE_HELD", .condWord, 0x0C, 0x7C⟩, ⟨"T_IDLE_EDGE", .condWord, 0x08, 0x7C⟩,
   ⟨"T_CONF_WAIT", .condWord, 0x10, 0x71⟩, ⟨"T_CONF_PASS", .condWord, 0x19, 0x79⟩,
   ⟨"T_CONF_NOISE", .condWord, 0x11, 0x79⟩, ⟨"T_ADV_EARLY", .condWord, 0x20, 0x70⟩,
   ⟨"T_ADV_PERIOD", .condWord, 0x30, 0x70⟩]

/-- The sixteen rows of R48. -/
def romRows : List Row :=
  [⟨"SEG_0", .romAddr, 0x0, 0xF⟩, ⟨"SEG_1", .romAddr, 0x1, 0xF⟩, ⟨"SEG_2", .romAddr, 0x2, 0xF⟩,
   ⟨"SEG_3", .romAddr, 0x3, 0xF⟩, ⟨"SEG_4", .romAddr, 0x4, 0xF⟩, ⟨"SEG_5", .romAddr, 0x5, 0xF⟩,
   ⟨"SEG_6", .romAddr, 0x6, 0xF⟩, ⟨"SEG_7", .romAddr, 0x7, 0xF⟩, ⟨"SEG_8", .romAddr, 0x8, 0xF⟩,
   ⟨"SEG_9", .romAddr, 0x9, 0xF⟩, ⟨"ROM_OOD_A", .romAddr, 0xA, 0xF⟩, ⟨"ROM_OOD_B", .romAddr, 0xB, 0xF⟩,
   ⟨"ROM_OOD_C", .romAddr, 0xC, 0xF⟩, ⟨"ROM_OOD_D", .romAddr, 0xD, 0xF⟩, ⟨"ROM_OOD_E", .romAddr, 0xE, 0xF⟩,
   ⟨"ROM_OOD_F", .romAddr, 0xF, 0xF⟩]

/-- The row of an operation in the maps of R47 and R48; none for the two continuous rows (R43). -/
def Instr.row : Instr → Option Row
  | .reset .. => condRows[0]?
  | .tIdleLow .. => condRows[1]?
  | .tIdleHeld .. => condRows[2]?
  | .tIdleEdge .. => condRows[3]?
  | .tConfWait .. => condRows[4]?
  | .tConfPass .. => condRows[5]?
  | .tConfNoise .. => condRows[6]?
  | .tAdvEarly .. => condRows[7]?
  | .tAdvPeriod .. => condRows[8]?
  | .seg0 => romRows[0]?
  | .seg1 => romRows[1]?
  | .seg2 => romRows[2]?
  | .seg3 => romRows[3]?
  | .seg4 => romRows[4]?
  | .seg5 => romRows[5]?
  | .seg6 => romRows[6]?
  | .seg7 => romRows[7]?
  | .seg8 => romRows[8]?
  | .seg9 => romRows[9]?
  | .romOodA => romRows[10]?
  | .romOodB => romRows[11]?
  | .romOodC => romRows[12]?
  | .romOodD => romRows[13]?
  | .romOodE => romRows[14]?
  | .romOodF => romRows[15]?
  | .render => none
  | .portMerge => none

/-- The format of a word (R43). -/
def EncWord.format : EncWord → Format
  | .romAddr _ => .romAddr
  | .condWord _ => .condWord

/-- The word as a number, bit 0 least significant (R9). -/
def EncWord.toNat : EncWord → Nat
  | .romAddr d => d.toNat
  | .condWord c => c.toNat

end Sys2Proof
end

