-- ==== Sys2Proof/Machine/Output.lean ====
section
/-! DEFINITION. The constant contents of `seg7_rom` and the pure output functions: the drive value and the port
merge (spec 20_memory.md R30, R33, R37; 40_encoder_rom.md R55 to R66; 42_display_output.md R86, R89). -/

namespace Sys2Proof.Machine

/-- The ROM of R37 and R66 as (address, pattern) pairs, addresses rising, bits `g f e d c b a`. Addresses 10 to
15 are outside the domain and have no content (R65). -/
def romTable : List (Nat × Pattern) :=
  [(0, 0b0111111#7), (1, 0b0000110#7), (2, 0b1011011#7), (3, 0b1001111#7), (4, 0b1100110#7),
   (5, 0b1101101#7), (6, 0b1111101#7), (7, 0b0000111#7), (8, 0b1111111#7), (9, 0b1101111#7)]

/-- The content of a ROM address, none outside the domain (R37). -/
def romLookup (d : Digit) : Option Pattern := romTable.lookup d.toNat

/-- The active-low drive value of a lit pattern, `~seg & 0x7F` (R86). -/
def driveValue (p : Pattern) : Pattern := ~~~p &&& 0x7F#7

/-- `port_out[6:0] = seg_n`, `port_out[PORT_W-1:7] = other[PORT_W-1:7]`: the hardware form of the merge, a
bit-slice composition (R89, R42). -/
def mergeSlice {n : Nat} (segN : Pattern) (other : BitVec n) : BitVec n :=
  (other.extractLsb' 7 (n - 7) ++ segN).setWidth n

/-- `(PortRead() & ~zext(0x7F)) | zext(seg_n)`: the masked read-modify-write form of the merge (R89). -/
def mergeMasked {n : Nat} (segN : Pattern) (port : BitVec n) : BitVec n :=
  (port &&& ~~~((0x7F#7).setWidth n)) ||| segN.setWidth n

/-- The value on a port of `portW` bits; bits of `other` above the port do not exist (R89).
DESIGN CHOICE, log entry 16; safe: a port value is held as a natural number below `2 ^ portW`. -/
def mergePort (portW : Nat) (segN : Pattern) (other : Nat) : Nat :=
  (mergeSlice segN (BitVec.ofNat portW other)).toNat

end Sys2Proof.Machine
end

