-- ==== Sys2Proof/Machine/State.lean ====
section
/-! DEFINITION. The state of seg7_counter (spec 10_state.md R14, R26, R27, R28), the reasons a step can stop
(60_exceptions.md R93, R105), and the machine right after reset. -/

namespace Sys2Proof.Machine

/-- The five registers by name, for `Fault.uninit` (R14, R93). -/
inductive RegName where
  | digit | prev | state | wcnt | dcnt
  deriving DecidableEq, Repr

/-- The two counters by name, for `Fault.counterRange` (R93). -/
inductive Counter where
  | wcnt | dcnt
  deriving DecidableEq, Repr

/-- The model faults of R93. None is a trap of the hardware (R92). A fault has no successor (R94). -/
inductive Fault where
  /-- Code 1: a step with `rst` = 0, or a read of `seg_n`, before the first reset. Raised by every row that reads
  a register: the transitions but `RESET`, `RENDER` and `PORT_MERGE`. Safe: no value is picked (R27, D15). -/
  | uninit (reg : RegName)
  /-- Code 2: `wcnt > N_WAIT - 1` or `dcnt > N_DEB - 1`. Raised by the decoder when it builds the condition
  word (R46), and by the transitions whose rules list it (R72, R73, R75 to R78). Safe: unreachable after reset, nothing
  wraps (D21). -/
  | counterRange (c : Counter) (value : Nat)
  /-- Code 3: `inc10(d)` with `d >= 10`. Raised by the two advance transitions (R69, R78, R79). Safe (D21). -/
  | digitDomain (d : Digit)
  /-- Code 4: `RomRead(d)` with `d >= 10`. Raised by the out-of-domain ROM rows, `RENDER` and `PORT_MERGE` (R65,
  R86). Safe: no pattern is picked (D10). -/
  | romDomain (d : Digit)
  deriving DecidableEq, Repr

/-- The refusals. -/
inductive Refusal where
  /-- An operation with no meaning yet, by its mnemonic. Raised by no arm of this model. Safe. -/
  | notModelled (mnemonic : String)
  /-- A build that breaks a constraint of R7 has no model (R105). Raised by every cycle and every row.
  Safe: claims about such builds are unprovable. -/
  | illegalBuild
  deriving DecidableEq, Repr

/-- The five registers (R14). The counters are naturals, which R71 allows: no width changes a result.
DEDUCED, log entry 8; safe. -/
structure Regs where
  digit : Digit
  prev : Bool
  state : Fsm
  wcnt : Nat
  dcnt : Nat
  deriving DecidableEq, Repr

/-- The state of the block and of its ports. -/
structure State where
  /-- The build parameters (R7). No row writes them. -/
  build : Build
  /-- The five registers; `none` from power-on until the first reset, when they hold no value (R27). -/
  regs : Option Regs
  /-- The output `seg` of `seg7_rom` (R26). -/
  seg : Option Pattern
  /-- The output `seg_n`; not defined before the first reset (R26, R27). -/
  segN : Option Pattern
  /-- The wider output port (R89). -/
  portOut : Option Nat
  /-- The inputs `rst` and `btn` of the current cycle and of the cycles after it, as far as they are fixed. -/
  stim : List Stim
  /-- The input `other` of the current cycle and of the cycles after it, as far as it is fixed (R89). -/
  others : List Nat
  /-- The number of the current cycle: the model's own field, the argument of the free inputs. -/
  cycle : Nat
  deriving DecidableEq, Repr

/-- The registers after a reset (R28, R106). -/
def Regs.reset : Regs where
  digit := 0#4
  prev := false
  state := .idle
  wcnt := 0
  dcnt := 0

/-- The block from power-on until the first reset: no register holds a value and no output is defined (R27). -/
def State.powerOn (b : Build) : State where
  build := b
  regs := none
  seg := none
  segN := none
  portOut := none
  stim := []
  others := []
  cycle := 0

/-- The machine right after reset (R28): the registers at their reset values, the display showing 0 (`seg_n` =
0x40), no stimulus queued, so that every input from here on is a free value. The cycle number 0 is the model's
own (DESIGN CHOICE, log entry 1; safe). -/
def State.reset : State where
  build := Config.build
  regs := some Regs.reset
  seg := some 0x3F#7
  segN := some 0x40#7
  portOut := some (mergePort Config.build.portW 0x40#7 (Config.freeOther 0))
  stim := []
  others := []
  cycle := 0

end Sys2Proof.Machine
end

