-- ==== Sys2Proof/Machine/Flags.lean ====
section
/-! DEFINITION. The derived bits `wlast` and `dlast` (spec 30_encoding.md R46) and the one condition flag `prev`
(10_state.md R17, R24). There is no arithmetic flag (R24). -/

namespace Sys2Proof.Machine

/-- `wlast = (wcnt == N_WAIT - 1)`: the running iteration is the last of the period (R46). -/
def wlast (b : Build) (r : Regs) : Bool := r.wcnt == b.nWait - 1

/-- `dlast = (dcnt == N_DEB - 1)`: this is the last cycle of the confirmation delay (R46). -/
def dlast (b : Build) (r : Regs) : Bool := r.dcnt == b.nDeb - 1

/-- The write of the condition flag by an IDLE cycle: the raw sample (R17, R24). -/
def Regs.sample (r : Regs) (btn : Bool) : Regs := { r with prev := btn }

end Sys2Proof.Machine
end

