-- ==== Sys2Proof/Machine/Operands.lean ====
section
/-! DEFINITION. The operands of a cycle: the input ports and the condition word (spec 10_state.md R26; 30_encoding.md
R45; 60_exceptions.md R91). -/

namespace Sys2Proof.Machine

/-- `rst` and `btn` as sampled at the edge of the current cycle (R10): the queued word, or free values.
DESIGN CHOICE, log entry 1; safe. -/
def State.stimNow (s : State) : Stim :=
  match s.stim with
  | [] => ⟨Config.freeRst s.cycle, Config.freeBtn s.cycle⟩
  | x :: _ => x

/-- `other` in the current cycle (R89): the queued value, or a free value. DESIGN CHOICE, log entry 1; safe. -/
def State.otherNow (s : State) : Nat :=
  match s.others with
  | [] => Config.freeOther s.cycle
  | x :: _ => x

/-- The condition word of a cycle (R45). -/
def condWord (b : Build) (r : Regs) (i : Stim) : CondWord :=
  packCond i.rst r.state i.btn r.prev (wlast b r) (dlast b r)

/-- Begin the next cycle: the inputs of the cycle that ends are gone. -/
def State.nextCycle (s : State) : State :=
  { s with stim := s.stim.tail, others := s.others.tail, cycle := s.cycle + 1 }

end Sys2Proof.Machine
end

