-- ==== Sys2Proof/Machine/Ops.lean ====
section
/-! DEFINITION. The named operations: sequencing of outcomes, the check of the build (spec 60_exceptions.md R105),
`RomRead` (00_scope.md R11, 40_encoder_rom.md R65), `inc10` (41_debounce_fsm.md R69), `end_iter` (R70), and the one
form all transitions share. The block has no exception entry and no return (60_exceptions.md R98): a model fault
is an outcome with no successor (R94). -/

namespace Sys2Proof.Machine

/-- The outcome of a row. -/
abbrev Out := Host.Outcome State Fault Refusal

/-- Go on from a next state; a fault or a refusal ends the step (R94). -/
def andThen {σ τ : Type} (o : Host.Outcome σ Fault Refusal) (k : σ → Host.Outcome τ Fault Refusal) :
    Host.Outcome τ Fault Refusal :=
  match o with
  | .next s => k s
  | .fault f => .fault f
  | .refused r => .refused r

/-- The code of a fault kind (R93). -/
def Fault.code : Fault → Nat
  | .uninit _ => 1
  | .counterRange _ _ => 2
  | .digitDomain _ => 3
  | .romDomain _ => 4

/-- Go on only in a legal build; an illegal one is refused (R105). -/
def onBuild {σ : Type} (s : State) (k : Host.Outcome σ Fault Refusal) : Host.Outcome σ Fault Refusal :=
  if s.build.wf then k else .refused .illegalBuild

/-- Read the registers; `reg` is the register an uninitialised read is recorded under (R27, R93). -/
def withRegs {σ : Type} (s : State) (reg : RegName) (k : Regs → Host.Outcome σ Fault Refusal) :
    Host.Outcome σ Fault Refusal :=
  match s.regs with
  | none => .fault (.uninit reg)
  | some r => k r

/-- Write all registers of a cycle at once (R38). -/
def State.setRegs (s : State) (r : Regs) : State := { s with regs := some r }

/-- Put a value on the output of `seg7_rom` (R52). -/
def State.setSeg (s : State) (p : Pattern) : State := { s with seg := some p }

/-- Drive `seg_n` (R86). -/
def State.setSegN (s : State) (p : Pattern) : State := { s with segN := some p }

/-- Drive the wider port (R89). -/
def State.setPortOut (s : State) (v : Nat) : State := { s with portOut := some v }

/-- `RomRead(d)`: the lit pattern, or `ROM_DOMAIN` outside 0 to 9 (R11, R65; log entry 19). -/
def romRead (d : Digit) : Except Fault Pattern :=
  match romLookup d with
  | some p => .ok p
  | none => .error (.romDomain d)

/-- `inc10(d)`: the modulo-10 advance (R69). -/
def inc10 (d : Digit) : Except Fault Digit :=
  if 10 ≤ d.toNat then .error (.digitDomain d)
  else if d = 9#4 then .ok 0#4
  else .ok (d + 1#4)

/-- The range check of the wait counter, `wcnt > N_WAIT - 1` (R46, R93). -/
def checkWait (b : Build) (r : Regs) : Except Fault Unit :=
  if b.nWait - 1 < r.wcnt then .error (.counterRange .wcnt r.wcnt) else .ok ()

/-- The range check of the debounce counter, `dcnt > N_DEB - 1` (R46, R93). -/
def checkDeb (b : Build) (r : Regs) : Except Fault Unit :=
  if b.nDeb - 1 < r.dcnt then .error (.counterRange .dcnt r.dcnt) else .ok ()

/-- The range check of both counters, `COUNTER_RANGE` with the counter and its value (R46, R93). When both are out of
range `wcnt` is recorded, the one that R46 names first (DESIGN CHOICE, log entry 6; safe). -/
def checkCounters (b : Build) (r : Regs) : Except Fault Unit :=
  match checkWait b r with
  | .ok _ => checkDeb b r
  | .error f => .error f

/-- The writes of `end_iter()`: after the last iteration of the period the periodic advance comes next and `wcnt`
is kept; otherwise the iteration is counted (R70). -/
def countIter (wlast : Bool) (r : Regs) : Regs :=
  if wlast then { r with state := .advancePeriod } else { r with wcnt := r.wcnt + 1, state := .idle }

/-- `end_iter()` with its counter check (R70, R46). -/
def endIter (b : Build) (wlast : Bool) (r : Regs) : Except Fault Regs :=
  match checkWait b r with
  | .ok _ => .ok (countIter wlast r)
  | .error f => .error f

/-- One transition of the FSM: `f` computes the registers after the edge from those before it (R10, R68). A
transition but `RESET` before the first reset is `UNINIT`, recorded under `state`, the first register the
condition word reads (DESIGN CHOICE, log entry 7; safe). -/
def transition (s : State) (f : Build → Regs → Except Fault Regs) : Out :=
  onBuild s (withRegs s .state fun r =>
    match f s.build r with
    | .ok r' => .next (s.setRegs r')
    | .error e => .fault e)

/-- One ROM lookup of `seg7_rom`: a function of its address alone (R52), in a build that has a model (R105; DEDUCED,
log entry 15; safe). -/
def romRow (d : Digit) (s : State) : Out :=
  onBuild s
    (match romRead d with
     | .ok p => .next (s.setSeg p)
     | .error f => .fault f)

/-- Read the drive value of the current digit and go on: `seg_n` as a function of `digit` alone (R86, R87). -/
def withDrive (s : State) (k : Pattern → Out) : Out :=
  onBuild s (withRegs s .digit fun r =>
    match romRead r.digit with
    | .ok p => k (driveValue p)
    | .error f => .fault f)

end Sys2Proof.Machine
end

