-- ==== Sys2Proof/Machine/Display.lean ====
section
/-! DEFINITION. The two continuous rows, `RENDER` and `PORT_MERGE` (spec 42_display_output.md R86, R89). They write
output ports only; nothing reads an output back (R90). -/

namespace Sys2Proof.Machine

/-- `RENDER`: `seg_n = ~RomRead(digit) & 0x7F` (R86). -/
def execRender (s : State) : Out :=
  withDrive s fun v => .next (s.setSegN v)

/-- `PORT_MERGE`: the segment bits in bits 6 down to 0 of the port, the bits of `other` above them (R89). The
operand `seg_n` is the drive value of the current digit, not a stored copy of it (R87, R90). -/
def execPortMerge (s : State) : Out :=
  withDrive s fun v => .next (s.setPortOut (mergePort s.build.portW v s.otherNow))

end Sys2Proof.Machine
end

