-- ==== Sys2Proof/Machine/RomLookup.lean ====
section
/-! DEFINITION. The ROM lookups `SEG_0` to `SEG_9` and `ROM_OOD_A` to `ROM_OOD_F` (spec 40_encoder_rom.md R52, R55 to
R65). Each puts the content of its own address on the output `seg` and changes nothing else. -/

namespace Sys2Proof.Machine

/-- `SEG_0`: segments a, b, c, d, e, f (R55). -/
def execSeg0 (s : State) : Out := romRow 0x0#4 s

/-- `SEG_1`: segments b, c (R56). -/
def execSeg1 (s : State) : Out := romRow 0x1#4 s

/-- `SEG_2`: segments a, b, d, e, g (R57). -/
def execSeg2 (s : State) : Out := romRow 0x2#4 s

/-- `SEG_3`: segments a, b, c, d, g (R58). -/
def execSeg3 (s : State) : Out := romRow 0x3#4 s

/-- `SEG_4`: segments b, c, f, g (R59). -/
def execSeg4 (s : State) : Out := romRow 0x4#4 s

/-- `SEG_5`: segments a, c, d, f, g (R60). -/
def execSeg5 (s : State) : Out := romRow 0x5#4 s

/-- `SEG_6`: segments a, c, d, e, f, g (R61). -/
def execSeg6 (s : State) : Out := romRow 0x6#4 s

/-- `SEG_7`: segments a, b, c (R62). -/
def execSeg7 (s : State) : Out := romRow 0x7#4 s

/-- `SEG_8`: all seven segments (R63). -/
def execSeg8 (s : State) : Out := romRow 0x8#4 s

/-- `SEG_9`: segments a, b, c, d, f, g (R64). -/
def execSeg9 (s : State) : Out := romRow 0x9#4 s

/-- `ROM_OOD_A`: `Fault(ROM_DOMAIN)(10)`; the spec gives the address no content (R65).
DEDUCED, log entry 19; safe. -/
def execRomOodA (s : State) : Out := romRow 0xA#4 s

/-- `ROM_OOD_B`: `Fault(ROM_DOMAIN)(11)` (R65). -/
def execRomOodB (s : State) : Out := romRow 0xB#4 s

/-- `ROM_OOD_C`: `Fault(ROM_DOMAIN)(12)` (R65). -/
def execRomOodC (s : State) : Out := romRow 0xC#4 s

/-- `ROM_OOD_D`: `Fault(ROM_DOMAIN)(13)` (R65). -/
def execRomOodD (s : State) : Out := romRow 0xD#4 s

/-- `ROM_OOD_E`: `Fault(ROM_DOMAIN)(14)` (R65). -/
def execRomOodE (s : State) : Out := romRow 0xE#4 s

/-- `ROM_OOD_F`: `Fault(ROM_DOMAIN)(15)` (R65). -/
def execRomOodF (s : State) : Out := romRow 0xF#4 s

end Sys2Proof.Machine
end

