-- ==== Sys2Proof/Machine/Transitions.lean ====
section
/-! DEFINITION. `RESET` (spec 70_reset_and_hazards.md R106) and the eight transitions of `debounce_fsm`
(41_debounce_fsm.md R72 to R79). A meaning is the effect of its row, given that the condition word has selected it:
the operand bit `w` is `wlast` as the word carries it (R45), and the bits a rule does not use have no effect. A
register that a rule does not write keeps its value (R10). The decoder checks both counters before any transition
(R46); a row checks again the counters its own rule lists, so that it has the rule's exceptions by itself too. -/

namespace Sys2Proof.Machine

/-- `RESET` reads no register and no input, so it runs from every state, the uninitialised one too (R106). -/
def execReset (_s : Fsm) (_b _p _w _d : Bool) (st : State) : Out :=
  onBuild st (.next (st.setRegs Regs.reset))

/-- `T_IDLE_LOW`: the sample is 0, and the iteration ends (R72). -/
def execTIdleLow (_p w _d : Bool) (st : State) : Out :=
  transition st fun b r => endIter b w (r.sample false)

/-- `T_IDLE_HELD`: the sample is 1 as the one before it was, and the iteration ends (R73). -/
def execTIdleHeld (w _d : Bool) (st : State) : Out :=
  transition st fun b r => endIter b w (r.sample true)

/-- `T_IDLE_EDGE`: a rising edge starts the confirmation delay; no counter is checked (R74). -/
def execTIdleEdge (_w _d : Bool) (st : State) : Out :=
  transition st fun _ r => .ok { r.sample true with dcnt := 0, state := .confirming }

/-- `T_CONF_WAIT`: one more cycle of the delay (R75). -/
def execTConfWait (_b _p _w : Bool) (st : State) : Out :=
  transition st fun b r =>
    match checkDeb b r with
    | .ok _ => .ok { r with dcnt := r.dcnt + 1 }
    | .error f => .error f

/-- `T_CONF_PASS`: the press is confirmed (R76). -/
def execTConfPass (_p _w : Bool) (st : State) : Out :=
  transition st fun b r =>
    match checkDeb b r with
    | .ok _ => .ok { r with dcnt := 0, state := .advanceEarly }
    | .error f => .error f

/-- `T_CONF_NOISE`: the edge is dropped and the iteration ends; both counters are checked (R77). -/
def execTConfNoise (_p w : Bool) (st : State) : Out :=
  transition st fun b r =>
    match checkCounters b r with
    | .ok _ => endIter b w { r with dcnt := 0 }
    | .error f => .error f

/-- `T_ADV_EARLY`: the early advance, then the end of the iteration; a counter out of range is recorded before a
digit out of domain (R78, R95). -/
def execTAdvEarly (_b _p w _d : Bool) (st : State) : Out :=
  transition st fun b r =>
    match endIter b w r with
    | .ok r' =>
      match inc10 r.digit with
      | .ok n => .ok { r' with digit := n }
      | .error f => .error f
    | .error f => .error f

/-- `T_ADV_PERIOD`: the periodic advance, and a new period starts (R79). -/
def execTAdvPeriod (_b _p _w _d : Bool) (st : State) : Out :=
  transition st fun _ r =>
    match inc10 r.digit with
    | .ok n => .ok { r with digit := n, wcnt := 0, state := .idle }
    | .error f => .error f

end Sys2Proof.Machine
end

