-- ==== Sys2Proof/Machine/Dispatch.lean ====
section
/-! DEFINITION. One arm per operation, one meaning per arm. -/

namespace Sys2Proof.Machine

def exec (i : Instr) (s : State) : Host.Outcome State Fault Refusal :=
  match i with
  | .reset c b p w d => Sys2Proof.Machine.execReset c b p w d s
  | .tIdleLow p w d => Sys2Proof.Machine.execTIdleLow p w d s
  | .tIdleHeld w d => Sys2Proof.Machine.execTIdleHeld w d s
  | .tIdleEdge w d => Sys2Proof.Machine.execTIdleEdge w d s
  | .tConfWait b p w => Sys2Proof.Machine.execTConfWait b p w s
  | .tConfPass p w => Sys2Proof.Machine.execTConfPass p w s
  | .tConfNoise p w => Sys2Proof.Machine.execTConfNoise p w s
  | .tAdvEarly b p w d => Sys2Proof.Machine.execTAdvEarly b p w d s
  | .tAdvPeriod b p w d => Sys2Proof.Machine.execTAdvPeriod b p w d s
  | .seg0 => Sys2Proof.Machine.execSeg0 s
  | .seg1 => Sys2Proof.Machine.execSeg1 s
  | .seg2 => Sys2Proof.Machine.execSeg2 s
  | .seg3 => Sys2Proof.Machine.execSeg3 s
  | .seg4 => Sys2Proof.Machine.execSeg4 s
  | .seg5 => Sys2Proof.Machine.execSeg5 s
  | .seg6 => Sys2Proof.Machine.execSeg6 s
  | .seg7 => Sys2Proof.Machine.execSeg7 s
  | .seg8 => Sys2Proof.Machine.execSeg8 s
  | .seg9 => Sys2Proof.Machine.execSeg9 s
  | .romOodA => Sys2Proof.Machine.execRomOodA s
  | .romOodB => Sys2Proof.Machine.execRomOodB s
  | .romOodC => Sys2Proof.Machine.execRomOodC s
  | .romOodD => Sys2Proof.Machine.execRomOodD s
  | .romOodE => Sys2Proof.Machine.execRomOodE s
  | .romOodF => Sys2Proof.Machine.execRomOodF s
  | .render => Sys2Proof.Machine.execRender s
  | .portMerge => Sys2Proof.Machine.execPortMerge s

end Sys2Proof.Machine
end

