-- ==== Sys2Proof/Machine/Cycle.lean ====
section
/-! DEFINITION. The two halves of a clock cycle around a transition: building the condition word and decoding it
(spec 41_debounce_fsm.md R68), and letting the continuous rows settle on the new state (40_encoder_rom.md R52;
42_display_output.md R86, R87, R89). -/

namespace Sys2Proof.Machine

/-- Building the condition word: with `rst` = 1 it selects `RESET`, which reads no register, and raises nothing (R95,
R106); otherwise the decoder compares both counters, and one above its range is `COUNTER_RANGE` before any transition
(R46, R93, R95; DEDUCED against the wording of R74, log entry 5; safe). -/
def buildCond (b : Build) (r : Regs) (i : Stim) : Except Fault CondWord :=
  if i.rst then .ok (condWord b r i)
  else
    match checkCounters b r with
    | .ok _ => .ok (condWord b r i)
    | .error f => .error f

/-- The transition of this cycle: the row that the condition word selects (R68, R47). Before the first reset no
condition word exists; then only `RESET`, which reads no register, can be selected (R27, R106). Its free bits are 0
there (DESIGN CHOICE, log entry 13; safe: no rule reads them). -/
def fetch (s : State) : Host.Outcome Instr Fault Refusal :=
  onBuild s
    (match s.regs with
     | none => if s.stimNow.rst then .next (decodeCond 0x40#7) else .fault (.uninit .state)
     | some r =>
       match buildCond s.build r s.stimNow with
       | .ok c => .next (decodeCond c)
       | .error f => .fault f)

/-- The outputs settle on the digit and on `other` of the new cycle: the ROM lookup that `digit` selects, then
`RENDER`, then `PORT_MERGE` (R36, R43, R87). A digit out of domain is `ROM_DOMAIN` here, after the transition
(R95). -/
def settle (s : State) : Out :=
  withRegs s .digit fun r =>
    andThen (exec (decodeRom r.digit) s) fun s1 =>
    andThen (exec .render s1) fun s2 => exec .portMerge s2

end Sys2Proof.Machine
end

