-- ==== Sys2Proof/Machine/Step.lean ====
section
/-! DEFINITION. One step is one clock cycle (spec 41_debounce_fsm.md R68, 70_reset_and_hazards.md R116), and the
state in which the next step runs a given word. -/

namespace Sys2Proof.Machine

/-- One clock cycle: the transition that the condition word selects, then the next cycle begins and the outputs
settle on it. -/
def step (s : State) : Host.Outcome State Fault Refusal :=
  andThen (fetch s) fun i => andThen (exec i s) fun t => settle t.nextCycle

/-- `s` made ready so that the very next step runs the operation of a word of the opcode table's numbering. The
block fetches nothing: its condition word is built from the inputs, the registers and the parameters, so these are
set so that the word is `w`. A word below 16 that is not given as a 7-bit word is a ROM address: it goes into
`digit`, whose lookup every step makes. DESIGN CHOICE, log entry 10; safe. -/
def State.withFetchWord (s : State) (nbits w : Nat) : State :=
  let c := BitVec.ofNat 7 w
  let r := s.regs.getD Regs.reset
  { s with
    build := {
      nWait := if c.getLsbD 1 then 1 else 2
      nDeb := if c.getLsbD 0 then 1 else 2
      wWait := 1
      wDeb := 1
      portW := 8 }
    stim := ⟨c.getLsbD 6, c.getLsbD 3⟩ :: s.stim.tail
    regs := some {
      digit := if nbits ≠ 7 ∧ w < 16 then BitVec.ofNat 4 w else r.digit
      prev := c.getLsbD 2
      state := Fsm.ofBits (c.getLsbD 5) (c.getLsbD 4)
      wcnt := 0
      dcnt := 0 } }

end Sys2Proof.Machine
end

