-- ==== Sys2Proof/Machine/Stimulus.lean ====
section
/-! DEFINITION. Stimulus programs: the expansion of the statements, their 2-bit words, and what loading a program
does to the state (spec 30_encoding.md R51). -/

namespace Sys2Proof.Machine

/-- One cycle with `rst` = 0 and `btn` = 0 (R51). -/
def stimB0 : Stim := ⟨false, false⟩

/-- One cycle with `rst` = 0 and `btn` = 1 (R51). -/
def stimB1 : Stim := ⟨false, true⟩

/-- One cycle with `rst` = 1 and `btn` = 0 (R51). -/
def stimRst : Stim := ⟨true, false⟩

/-- One cycle with `rst` = 1 and `btn` = 1 (R51). -/
def stimRst1 : Stim := ⟨true, true⟩

/-- The cycles of a statement; a pseudo-statement stands for its expansion (R51). -/
def expandStmt : Stmt → List Stim
  | .rst => [stimRst]
  | .b0 => [stimB0]
  | .b1 => [stimB1]
  | .rst1 => [stimRst1]
  | .b0x k => List.replicate k stimB0
  | .b1x k => List.replicate k stimB1
  | .idle k => List.replicate k stimB0
  | .hold k => List.replicate k stimB1
  | .boot => [stimRst]

/-- The word `{rst, btn}` of a cycle (R51). -/
def stimWord (x : Stim) : BitVec 2 := BitVec.ofBool x.rst ++ BitVec.ofBool x.btn

/-- The inputs that a word stands for (R51). -/
def stimOfWord (w : BitVec 2) : Stim := ⟨w.getLsbD 1, w.getLsbD 0⟩

/-- The cycles of a program in order (R51). -/
def expandProgram (p : StimProgram) : List Stim := p.body.flatMap expandStmt

/-- An encoded program: its list of 2-bit words in cycle order (R51). -/
def encodeProgram (p : StimProgram) : List (BitVec 2) := (expandProgram p).map stimWord

/-- Put a program before the block: `PARAM` fixes the two lengths, and the statements are the inputs of the cycles
from now on. `PARAM` names no width; a counter too narrow for its length is widened to the least legal width
(DESIGN CHOICE, log entry 11; safe: no width can be observed, R71). -/
def State.loadProgram (s : State) (p : StimProgram) : State :=
  { s with
    build := { s.build with
      nWait := p.nWait
      nDeb := p.nDeb
      wWait := max s.build.wWait (widthFor p.nWait)
      wDeb := max s.build.wDeb (widthFor p.nDeb) }
    stim := expandProgram p }

end Sys2Proof.Machine
end

