-- ==== Sys2Proof/Safety.lean ====
section
/-! DEFINITION. What claims are stated in: the range invariants (spec 10_state.md R29), the outputs that belong to a
state (42_display_output.md R86, R87, R89), and the outcomes of a run. -/

namespace Sys2Proof.Machine

/-- The range invariants of R29. -/
abbrev Regs.InRange (b : Build) (r : Regs) : Prop :=
  r.digit.toNat ≤ 9 ∧ r.wcnt ≤ b.nWait - 1 ∧ r.dcnt ≤ b.nDeb - 1 ∧ (r.state ≠ .confirming → r.dcnt = 0)

/-- The outputs show the digit: `seg` its pattern, `seg_n` the drive value, the port the merge with `other`
(R86, R87, R89). -/
abbrev State.Shows (s : State) (d : Digit) : Prop :=
  s.seg = romLookup d ∧ s.segN = (romLookup d).map driveValue ∧
    s.portOut = (romLookup d).map fun p => mergePort s.build.portW (driveValue p) s.otherNow

/-- The invariant of the block: a legal build, registers in range, and outputs that show the digit; before the
first reset the outputs `seg_n` and `port_out` are not defined (R7, R27, R29, R87). -/
abbrev State.Inv (s : State) : Prop :=
  s.build.wf = true ∧ (∀ r ∈ s.regs, r.InRange s.build ∧ s.Shows r.digit) ∧
    (s.regs = none → s.segN = none ∧ s.portOut = none)

/-- What the FSM state says about `prev` and `wcnt` (R70, R74, R76): an edge check runs only after a sample that was
asserted, and the periodic advance is due only when the last iteration has ended. -/
abbrev Regs.Phase (b : Build) (r : Regs) : Prop :=
  (r.state = .confirming ∨ r.state = .advanceEarly → r.prev = true) ∧
    (r.state = .advancePeriod → r.wcnt = b.nWait - 1)

/-- How many segments a pattern lights (the lit count of R66). -/
def litCount (p : Pattern) : Nat := (List.range 7).countP fun k => p.getLsbD k

/-- The end of an iteration, read from R70: the iteration is counted if another one follows in the period, else the
periodic advance comes next. -/
def closeIteration (b : Build) (r : Regs) : Regs :=
  if r.wcnt + 1 < b.nWait then { r with wcnt := r.wcnt + 1, state := .idle } else { r with state := .advancePeriod }

/-- `(digit + 1) mod 10` (R69). -/
def bump (d : Digit) : Digit := BitVec.ofNat 4 ((d.toNat + 1) % 10)

/-- The source's loop, one cycle with `rst` = 0 (R68, R72 to R79), as one function of the registers and the button,
with no condition word and no faults: what the machine is claimed to refine while its registers are in range. -/
def loopStep (b : Build) (btn : Bool) (r : Regs) : Regs :=
  match r.state with
  | .idle =>
    if btn = true ∧ r.prev = false then { r with prev := true, dcnt := 0, state := .confirming }
    else closeIteration b { r with prev := btn }
  | .confirming =>
    if r.dcnt + 1 < b.nDeb then { r with dcnt := r.dcnt + 1 }
    else if btn = true then { r with dcnt := 0, state := .advanceEarly }
    else closeIteration b { r with dcnt := 0 }
  | .advanceEarly => closeIteration b { r with digit := bump r.digit }
  | .advancePeriod => { r with digit := bump r.digit, wcnt := 0, state := .idle }

/-- `k` clock cycles. -/
abbrev run (k : Nat) (s : State) : Out := Host.Core.run Sys2Proof.core k s

/-- The state an outcome goes on in, if it does. -/
def nextOf {σ : Type} : Host.Outcome σ Fault Refusal → Option σ
  | .next s => some s
  | .fault _ => none
  | .refused _ => none

/-- The fault an outcome stops with, if it does. -/
def faultOf {σ : Type} : Host.Outcome σ Fault Refusal → Option Fault
  | .next _ => none
  | .fault f => some f
  | .refused _ => none

/-- The refusal an outcome stops with, if it does. -/
def refusalOf {σ : Type} : Host.Outcome σ Fault Refusal → Option Refusal
  | .next _ => none
  | .fault _ => none
  | .refused r => some r

/-- The five registers an outcome leaves, if it goes on after a reset. -/
def regsOf (o : Out) : Option Regs := (nextOf o).bind State.regs

end Sys2Proof.Machine
end

