-- ==== Sys2Proof/Certificates/Slice0/Obligations.lean ====
section
/-! DEFINITION. The statements about seg7_counter, from the numbered rules of spec/. -/

open Sys2Proof Sys2Proof.Machine

/-! ## Encoding -/

/-- Every operation that a word selects is decoded back from its word, with every operand at every value
(30_encoding.md R45, R47, R48). -/
def Obligations.DecodeInvertsEncode : Prop :=
  ∀ i : Instr, i.hasWord = true → ∃ e, encode i = some e ∧ decode e = i

/-- Every word of either format is the word of the operation it decodes to, so no bit is dropped (R47, R48). -/
def Obligations.EncodeInvertsDecode : Prop :=
  ∀ e : EncWord, encode (decode e) = some e

/-- "Each of the 128 values of the word selects exactly one transition" (R47, which the spec marks as its own
enumeration): the row with `(word & mask) == match` exists, it is the decoded transition's row, and no other row
matches. -/
def Obligations.EveryConditionWordHasOneRow : Prop :=
  ∀ c : CondWord,
    (∃ r ∈ condRows, (decodeCond c).row = some r ∧ r.mnemonic = (decodeCond c).mnemonic) ∧
      ∀ r ∈ condRows, (r.selects .condWord c.toNat = true ↔ (decodeCond c).row = some r)

/-- "Each of the 16 values of `d` selects one row" (R48). -/
def Obligations.EveryRomAddressHasOneRow : Prop :=
  ∀ d : Digit,
    (∃ r ∈ romRows, (decodeRom d).row = some r ∧ r.mnemonic = (decodeRom d).mnemonic) ∧
      ∀ r ∈ romRows, (r.selects .romAddr d.toNat = true ↔ (decodeRom d).row = some r)

/-- The condition words the spec writes out decode to the transitions it names (95_test_vectors.md 2.3 and 2.5). -/
def Obligations.SpecWordsDecode : Prop :=
  decodeCond 0b1111111#7 = .reset .advancePeriod true true true true ∧
  decodeCond 0b0111111#7 = .tAdvPeriod true true true true ∧
  decodeCond 0b0011011#7 = .tConfPass false true ∧
  decodeCond 0b0011010#7 = .tConfWait true false true ∧
  decodeCond 0b0001111#7 = .tIdleHeld true true ∧
  decodeCond 0b0000111#7 = .tIdleLow true true true ∧
  decodeCond 0b0001010#7 = .tIdleEdge true false ∧
  decodeCond 0b0010111#7 = .tConfNoise true true ∧
  decodeCond 0b0101110#7 = .tAdvEarly true true true false ∧
  decodeRom 0b0110#4 = .seg6 ∧ decodeRom 0b1100#4 = .romOodC

/-- A raw byte is a word of a format exactly when its bits above the format's width are 0 (R43, R44, R45); any
other byte is rejected by name. -/
def Obligations.RawBytesAreRejectedByName : Prop :=
  ∀ b : BitVec 8,
    (16 ≤ b.toNat → decodeByte .romAddr b = .error .romAddrTooWide) ∧
    (b.toNat < 16 → decodeByte .romAddr b = .ok (decodeRom (b.setWidth 4))) ∧
    (128 ≤ b.toNat → decodeByte .condWord b = .error .condWordTooWide) ∧
    (b.toNat < 128 → decodeByte .condWord b = .ok (decodeCond (b.setWidth 7)))

/-- The fields of the condition word (R45), with `wlast` and `dlast` as R46 defines them. -/
def Obligations.ConditionWordFields : Prop :=
  ∀ (b : Build) (r : Regs) (i : Stim),
    (condWord b r i).getLsbD 6 = i.rst ∧
    (condWord b r i).extractLsb' 4 2 = r.state.code ∧
    (condWord b r i).getLsbD 3 = i.btn ∧
    (condWord b r i).getLsbD 2 = r.prev ∧
    ((condWord b r i).getLsbD 1 = true ↔ r.wcnt = b.nWait - 1) ∧
    ((condWord b r i).getLsbD 0 = true ↔ r.dcnt = b.nDeb - 1)

/-! ## The ROM -/

/-- `SEG_0` to `SEG_9` complete in every state of a legal build, the uninitialised one too, and put their pattern on
`seg`; nothing else changes (R55 to R64). With the drive values of the rules' examples, and the corner cases they
name. -/
def Obligations.SegRowsGiveThePatterns : Prop :=
  (∀ s : State, s.build.wf = true →
    exec .seg0 s = .next { s with seg := some 0b0111111#7 } ∧
    exec .seg1 s = .next { s with seg := some 0b0000110#7 } ∧
    exec .seg2 s = .next { s with seg := some 0b1011011#7 } ∧
    exec .seg3 s = .next { s with seg := some 0b1001111#7 } ∧
    exec .seg4 s = .next { s with seg := some 0b1100110#7 } ∧
    exec .seg5 s = .next { s with seg := some 0b1101101#7 } ∧
    exec .seg6 s = .next { s with seg := some 0b1111101#7 } ∧
    exec .seg7 s = .next { s with seg := some 0b0000111#7 } ∧
    exec .seg8 s = .next { s with seg := some 0b1111111#7 } ∧
    exec .seg9 s = .next { s with seg := some 0b1101111#7 }) ∧
  (driveValue 0b0111111#7 = 0x40#7 ∧ driveValue 0b0000110#7 = 0x79#7 ∧ driveValue 0b1011011#7 = 0x24#7 ∧
    driveValue 0b1001111#7 = 0x30#7 ∧ driveValue 0b1100110#7 = 0x19#7 ∧ driveValue 0b1101101#7 = 0x12#7 ∧
    driveValue 0b1111101#7 = 0x02#7 ∧ driveValue 0b0000111#7 = 0x78#7 ∧ driveValue 0b1111111#7 = 0x00#7 ∧
    driveValue 0b1101111#7 = 0x10#7) ∧
  (State.reset.seg = some 0b0111111#7 ∧ inc10 9#4 = .ok 0#4) ∧
  (∀ (d : Digit) (p : Pattern), romRead d = .ok p →
    d.toNat ≤ 9 ∧ 2 ≤ litCount p ∧ (litCount p = 2 → d = 1#4) ∧ (p = 0b1111111#7 → d = 8#4))

/-- `ROM_OOD_A` to `ROM_OOD_F` raise `ROM_DOMAIN` with the address in every state of a legal build, and `RomRead` gives
no pattern there (R65). -/
def Obligations.RomOutOfDomainFaults : Prop :=
  (∀ s : State, s.build.wf = true →
    exec .romOodA s = .fault (.romDomain 10#4) ∧
    exec .romOodB s = .fault (.romDomain 11#4) ∧
    exec .romOodC s = .fault (.romDomain 12#4) ∧
    exec .romOodD s = .fault (.romDomain 13#4) ∧
    exec .romOodE s = .fault (.romDomain 14#4) ∧
    exec .romOodF s = .fault (.romDomain 15#4)) ∧
  ∀ d : Digit, 10 ≤ d.toNat → romRead d = .error (.romDomain d)

/-- Over 0 to 9 the lookup is total, gives exactly one pattern, depends on the address alone and has no side effect
(R52). -/
def Obligations.RomLookupIsTotalAndPure : Prop :=
  ∀ d : Digit, d.toNat ≤ 9 →
    ∃! p : Pattern, ∀ s : State, s.build.wf = true → exec (decodeRom d) s = .next { s with seg := some p }

/-- The source's letter table (R66; the bits of the letters, R33), with the numeric columns that the spec marks as
derived from it. -/
def Obligations.TableMatchesTheSourceLetters : Prop :=
  (∀ row ∈ ([(0#4, [.a, .b, .c, .d, .e, .f]), (1#4, [.b, .c]), (2#4, [.a, .b, .d, .e, .g]),
      (3#4, [.a, .b, .c, .d, .g]), (4#4, [.b, .c, .f, .g]), (5#4, [.a, .c, .d, .f, .g]),
      (6#4, [.a, .c, .d, .e, .f, .g]), (7#4, [.a, .b, .c]), (8#4, [.a, .b, .c, .d, .e, .f, .g]),
      (9#4, [.a, .b, .c, .d, .f, .g])] : List (Digit × List Segment)),
    ∃ p, romRead row.1 = .ok p ∧ ∀ x : Segment, isLit p x = true ↔ x ∈ row.2) ∧
  (∀ row ∈ ([(0#4, 0x3F#7, 6, 0x40#7), (1#4, 0x06#7, 2, 0x79#7), (2#4, 0x5B#7, 5, 0x24#7),
      (3#4, 0x4F#7, 5, 0x30#7), (4#4, 0x66#7, 4, 0x19#7), (5#4, 0x6D#7, 5, 0x12#7), (6#4, 0x7D#7, 6, 0x02#7),
      (7#4, 0x07#7, 3, 0x78#7), (8#4, 0x7F#7, 7, 0x00#7), (9#4, 0x6F#7, 6, 0x10#7)] :
      List (Digit × Pattern × Nat × Pattern)),
    romRead row.1 = .ok row.2.1 ∧ litCount row.2.1 = row.2.2.1 ∧ ~~~row.2.1 &&& 0x7F#7 = row.2.2.2)

/-- The ten patterns are pairwise distinct, and so are the ten drive values: the digit can be read back from either
(R67, an inference of the spec from R66). -/
def Obligations.PatternsAreDistinct : Prop :=
  ∀ (d e : Digit) (p q : Pattern), romRead d = .ok p → romRead e = .ok q →
    (p = q → d = e) ∧ (~~~p &&& 0x7F#7 = ~~~q &&& 0x7F#7 → d = e)

/-! ## Reset -/

/-- `RESET` completes in every state of a legal build, the uninitialised one too, whatever its free bits are, and
writes the five registers and nothing else (R106). -/
def Obligations.ResetRowCompletes : Prop :=
  ∀ (c : Fsm) (b p w d : Bool) (s : State), s.build.wf = true →
    exec (.reset c b p w d) s =
      .next { s with regs := some { digit := 0#4, prev := false, state := .idle, wcnt := 0, dcnt := 0 } }

/-- A cycle with `rst` = 1 selects `RESET` whatever the rest, leaves the reset values, and shows 0x40 on `seg_n` in
the next cycle (R28, R106). The reset values of `prev`, `state`, `wcnt` and `dcnt`, and the synchronous reset, are
decisions D2 to D4 of the spec. -/
def Obligations.ResetCycle : Prop :=
  ∀ s : State, s.build.wf = true → s.stimNow.rst = true →
    (∀ (c : Fsm) (b p w d : Bool), encode (.reset c b p w d) =
      some (.condWord (0b1#1 ++ c.code ++ BitVec.ofBool b ++ BitVec.ofBool p ++ BitVec.ofBool w ++ BitVec.ofBool d))) ∧
    (∃ c b p w d, fetch s = .next (.reset c b p w d)) ∧
    ∃ t, step s = .next t ∧
      t.regs = some { digit := 0#4, prev := false, state := .idle, wcnt := 0, dcnt := 0 } ∧
      t.segN = some 0x40#7 ∧ t.build = s.build ∧ t.stim = s.stim.tail ∧ t.others = s.others.tail

/-- The machine starts with the reset values, and its display shows 0 (R28). -/
def Obligations.ResetStateHoldsTheResetValues : Prop :=
  State.reset.regs = some { digit := 0#4, prev := false, state := .idle, wcnt := 0, dcnt := 0 } ∧
  State.reset.seg = some 0b0111111#7 ∧ State.reset.segN = some 0b1000000#7

/-- The invariant holds right after reset, whatever the legal build is (R29). -/
def Obligations.ResetMeetsTheInvariant : Prop := State.reset.Inv

/-- Holding `rst` = 1 repeats `RESET`: after any number of such cycles, from any state, the registers are the reset
values and the display shows 0 (R107). -/
def Obligations.HeldResetRepeats : Prop :=
  ∀ (s : State) (xs q : List Stim), s.build.wf = true → xs ≠ [] → (∀ x ∈ xs, x.rst = true) → s.stim = xs ++ q →
    ∃ t, run xs.length s = .next t ∧
      t.regs = some { digit := 0#4, prev := false, state := .idle, wcnt := 0, dcnt := 0 } ∧
      t.segN = some 0x40#7 ∧ t.build = s.build ∧ t.stim = q

/-! ## The transitions, one statement each: its word, when it is selected, its result, its faults

The decoder stops on a counter out of range before any transition (R46), so a row is selected with both in range. -/

/-- `T_IDLE_LOW` (R72). -/
def Obligations.IdleLowSample : Prop :=
  ∀ (s : State) (r : Regs), s.build.wf = true → s.regs = some r →
    (∀ p w d : Bool, encode (.tIdleLow p w d) =
      some (.condWord (0b0000#4 ++ BitVec.ofBool p ++ BitVec.ofBool w ++ BitVec.ofBool d))) ∧
    (s.stimNow = ⟨false, false⟩ → r.state = .idle →
      r.wcnt ≤ s.build.nWait - 1 → r.dcnt ≤ s.build.nDeb - 1 →
      fetch s = .next (.tIdleLow r.prev (r.wcnt == s.build.nWait - 1) (r.dcnt == s.build.nDeb - 1))) ∧
    (∀ p w d : Bool, r.wcnt ≤ s.build.nWait - 1 →
      exec (.tIdleLow p w d) s = .next { s with regs := some (
        if w then { r with prev := false, state := .advancePeriod }
        else { r with prev := false, wcnt := r.wcnt + 1, state := .idle }) }) ∧
    (∀ p w d : Bool, s.build.nWait - 1 < r.wcnt →
      exec (.tIdleLow p w d) s = .fault (.counterRange .wcnt r.wcnt))

/-- `T_IDLE_HELD` (R73). -/
def Obligations.IdleHeldSample : Prop :=
  ∀ (s : State) (r : Regs), s.build.wf = true → s.regs = some r →
    (∀ w d : Bool, encode (.tIdleHeld w d) =
      some (.condWord (0b00011#5 ++ BitVec.ofBool w ++ BitVec.ofBool d))) ∧
    (s.stimNow = ⟨false, true⟩ → r.state = .idle → r.prev = true →
      r.wcnt ≤ s.build.nWait - 1 → r.dcnt ≤ s.build.nDeb - 1 →
      fetch s = .next (.tIdleHeld (r.wcnt == s.build.nWait - 1) (r.dcnt == s.build.nDeb - 1))) ∧
    (∀ w d : Bool, r.wcnt ≤ s.build.nWait - 1 →
      exec (.tIdleHeld w d) s = .next { s with regs := some (
        if w then { r with prev := true, state := .advancePeriod }
        else { r with prev := true, wcnt := r.wcnt + 1, state := .idle }) }) ∧
    (∀ w d : Bool, s.build.nWait - 1 < r.wcnt →
      exec (.tIdleHeld w d) s = .fault (.counterRange .wcnt r.wcnt))

/-- `T_IDLE_EDGE` (R74): the transition raises no fault, whatever the counters hold. -/
def Obligations.IdleEdgeSample : Prop :=
  ∀ (s : State) (r : Regs), s.build.wf = true → s.regs = some r →
    (∀ w d : Bool, encode (.tIdleEdge w d) =
      some (.condWord (0b00010#5 ++ BitVec.ofBool w ++ BitVec.ofBool d))) ∧
    (s.stimNow = ⟨false, true⟩ → r.state = .idle → r.prev = false →
      r.wcnt ≤ s.build.nWait - 1 → r.dcnt ≤ s.build.nDeb - 1 →
      fetch s = .next (.tIdleEdge (r.wcnt == s.build.nWait - 1) (r.dcnt == s.build.nDeb - 1))) ∧
    (∀ w d : Bool,
      exec (.tIdleEdge w d) s =
        .next { s with regs := some { r with prev := true, dcnt := 0, state := .confirming } })

/-- `T_CONF_WAIT` (R75). -/
def Obligations.ConfirmationWaits : Prop :=
  ∀ (s : State) (r : Regs), s.build.wf = true → s.regs = some r →
    (∀ b p w : Bool, encode (.tConfWait b p w) =
      some (.condWord (0b001#3 ++ BitVec.ofBool b ++ BitVec.ofBool p ++ BitVec.ofBool w ++ 0b0#1))) ∧
    (s.stimNow.rst = false → r.state = .confirming → r.wcnt ≤ s.build.nWait - 1 → r.dcnt < s.build.nDeb - 1 →
      fetch s = .next (.tConfWait s.stimNow.btn r.prev (r.wcnt == s.build.nWait - 1))) ∧
    (∀ b p w : Bool, r.dcnt ≤ s.build.nDeb - 1 →
      exec (.tConfWait b p w) s = .next { s with regs := some { r with dcnt := r.dcnt + 1 } }) ∧
    (∀ b p w : Bool, s.build.nDeb - 1 < r.dcnt →
      exec (.tConfWait b p w) s = .fault (.counterRange .dcnt r.dcnt))

/-- `T_CONF_PASS` (R76). -/
def Obligations.ConfirmationPasses : Prop :=
  ∀ (s : State) (r : Regs), s.build.wf = true → s.regs = some r →
    (∀ p w : Bool, encode (.tConfPass p w) =
      some (.condWord (0b0011#4 ++ BitVec.ofBool p ++ BitVec.ofBool w ++ 0b1#1))) ∧
    (s.stimNow = ⟨false, true⟩ → r.state = .confirming → r.wcnt ≤ s.build.nWait - 1 → r.dcnt = s.build.nDeb - 1 →
      fetch s = .next (.tConfPass r.prev (r.wcnt == s.build.nWait - 1))) ∧
    (∀ p w : Bool, r.dcnt ≤ s.build.nDeb - 1 →
      exec (.tConfPass p w) s = .next { s with regs := some { r with dcnt := 0, state := .advanceEarly } }) ∧
    (∀ p w : Bool, s.build.nDeb - 1 < r.dcnt →
      exec (.tConfPass p w) s = .fault (.counterRange .dcnt r.dcnt))

/-- `T_CONF_NOISE` (R77). Which counter is recorded when both are out of range the spec leaves open, so the
statement does not say which. -/
def Obligations.ConfirmationFindsNoise : Prop :=
  ∀ (s : State) (r : Regs), s.build.wf = true → s.regs = some r →
    (∀ p w : Bool, encode (.tConfNoise p w) =
      some (.condWord (0b0010#4 ++ BitVec.ofBool p ++ BitVec.ofBool w ++ 0b1#1))) ∧
    (s.stimNow = ⟨false, false⟩ → r.state = .confirming → r.wcnt ≤ s.build.nWait - 1 → r.dcnt = s.build.nDeb - 1 →
      fetch s = .next (.tConfNoise r.prev (r.wcnt == s.build.nWait - 1))) ∧
    (∀ p w : Bool, r.dcnt ≤ s.build.nDeb - 1 → r.wcnt ≤ s.build.nWait - 1 →
      exec (.tConfNoise p w) s = .next { s with regs := some (
        if w then { r with dcnt := 0, state := .advancePeriod }
        else { r with dcnt := 0, wcnt := r.wcnt + 1, state := .idle }) }) ∧
    (∀ p w : Bool, s.build.nDeb - 1 < r.dcnt → r.wcnt ≤ s.build.nWait - 1 →
      exec (.tConfNoise p w) s = .fault (.counterRange .dcnt r.dcnt)) ∧
    (∀ p w : Bool, r.dcnt ≤ s.build.nDeb - 1 → s.build.nWait - 1 < r.wcnt →
      exec (.tConfNoise p w) s = .fault (.counterRange .wcnt r.wcnt)) ∧
    (∀ p w : Bool, s.build.nDeb - 1 < r.dcnt → s.build.nWait - 1 < r.wcnt →
      ∃ c v, exec (.tConfNoise p w) s = .fault (.counterRange c v))

/-- `T_ADV_EARLY` (R78): the new digit is `(digit + 1) mod 10`. -/
def Obligations.EarlyAdvance : Prop :=
  ∀ (s : State) (r : Regs), s.build.wf = true → s.regs = some r →
    (∀ b p w d : Bool, encode (.tAdvEarly b p w d) =
      some (.condWord (0b010#3 ++ BitVec.ofBool b ++ BitVec.ofBool p ++ BitVec.ofBool w ++ BitVec.ofBool d))) ∧
    (s.stimNow.rst = false → r.state = .advanceEarly →
      r.wcnt ≤ s.build.nWait - 1 → r.dcnt ≤ s.build.nDeb - 1 →
      fetch s = .next (.tAdvEarly s.stimNow.btn r.prev (r.wcnt == s.build.nWait - 1)
        (r.dcnt == s.build.nDeb - 1))) ∧
    (∀ b p w d : Bool, r.wcnt ≤ s.build.nWait - 1 → r.digit.toNat ≤ 9 →
      exec (.tAdvEarly b p w d) s = .next { s with regs := some (
        if w then { r with digit := BitVec.ofNat 4 ((r.digit.toNat + 1) % 10), state := .advancePeriod }
        else { r with digit := BitVec.ofNat 4 ((r.digit.toNat + 1) % 10), wcnt := r.wcnt + 1, state := .idle }) }) ∧
    (∀ b p w d : Bool, s.build.nWait - 1 < r.wcnt →
      exec (.tAdvEarly b p w d) s = .fault (.counterRange .wcnt r.wcnt)) ∧
    (∀ b p w d : Bool, r.wcnt ≤ s.build.nWait - 1 → 10 ≤ r.digit.toNat →
      exec (.tAdvEarly b p w d) s = .fault (.digitDomain r.digit))

/-- `T_ADV_PERIOD` (R79): it checks no counter. -/
def Obligations.PeriodicAdvance : Prop :=
  ∀ (s : State) (r : Regs), s.build.wf = true → s.regs = some r →
    (∀ b p w d : Bool, encode (.tAdvPeriod b p w d) =
      some (.condWord (0b011#3 ++ BitVec.ofBool b ++ BitVec.ofBool p ++ BitVec.ofBool w ++ BitVec.ofBool d))) ∧
    (s.stimNow.rst = false → r.state = .advancePeriod →
      r.wcnt ≤ s.build.nWait - 1 → r.dcnt ≤ s.build.nDeb - 1 →
      fetch s = .next (.tAdvPeriod s.stimNow.btn r.prev (r.wcnt == s.build.nWait - 1)
        (r.dcnt == s.build.nDeb - 1))) ∧
    (∀ b p w d : Bool, r.digit.toNat ≤ 9 →
      exec (.tAdvPeriod b p w d) s = .next { s with regs := some (
        { r with digit := BitVec.ofNat 4 ((r.digit.toNat + 1) % 10), wcnt := 0, state := .idle }) }) ∧
    (∀ b p w d : Bool, 10 ≤ r.digit.toNat →
      exec (.tAdvPeriod b p w d) s = .fault (.digitDomain r.digit))

/-- `inc10` is `(digit + 1) mod 10` on 0 to 9 and `DIGIT_DOMAIN` above; ten advances give back the digit (R69). -/
def Obligations.IncTenIsModTen : Prop :=
  (∀ d : Digit, d.toNat ≤ 9 → inc10 d = .ok (BitVec.ofNat 4 ((d.toNat + 1) % 10))) ∧
  (∀ d : Digit, 10 ≤ d.toNat → inc10 d = .error (.digitDomain d)) ∧
  (∀ d : Digit, d.toNat ≤ 9 → (List.range 10).foldlM (fun e _ => inc10 e) d = .ok d)

/-! ## Faults and refusals -/

/-- Before the first reset, a cycle with `rst` = 0, every transition but `RESET`, and every read of `seg_n` raise
`UNINIT`, for `RENDER` under the one register it reads; no register and no output has a value from power-on (R27). -/
def Obligations.UninitialisedReadsFault : Prop :=
  (∀ b : Build, (State.powerOn b).regs = none ∧ (State.powerOn b).segN = none) ∧
  ∀ s : State, s.build.wf = true → s.regs = none →
    (s.stimNow.rst = false → ∃ n, step s = .fault (.uninit n)) ∧
    exec .render s = .fault (.uninit .digit) ∧ (∃ n, exec .portMerge s = .fault (.uninit n)) ∧
    (∀ p w d : Bool, ∃ n, exec (.tIdleLow p w d) s = .fault (.uninit n)) ∧
    (∀ w d : Bool, ∃ n, exec (.tIdleHeld w d) s = .fault (.uninit n)) ∧
    (∀ w d : Bool, ∃ n, exec (.tIdleEdge w d) s = .fault (.uninit n)) ∧
    (∀ b p w : Bool, ∃ n, exec (.tConfWait b p w) s = .fault (.uninit n)) ∧
    (∀ p w : Bool, ∃ n, exec (.tConfPass p w) s = .fault (.uninit n)) ∧
    (∀ p w : Bool, ∃ n, exec (.tConfNoise p w) s = .fault (.uninit n)) ∧
    (∀ b p w d : Bool, ∃ n, exec (.tAdvEarly b p w d) s = .fault (.uninit n)) ∧
    (∀ b p w d : Bool, ∃ n, exec (.tAdvPeriod b p w d) s = .fault (.uninit n))

/-- The order of faults in one cycle: `UNINIT`, then `COUNTER_RANGE` whatever the state and the digit are, then
`DIGIT_DOMAIN`, then `ROM_DOMAIN` at the output of the new state; `RESET` raises none (R95). Which counter is recorded
when both are out of range the spec leaves open, so the statement does not say which. -/
def Obligations.FaultsAreRecordedInOrder : Prop :=
  ∀ s : State, s.build.wf = true →
    (s.regs = none → s.stimNow.rst = false → ∃ n, step s = .fault (.uninit n)) ∧
    (∀ r, s.regs = some r → s.stimNow.rst = false → s.build.nWait - 1 < r.wcnt → r.dcnt ≤ s.build.nDeb - 1 →
      step s = .fault (.counterRange .wcnt r.wcnt)) ∧
    (∀ r, s.regs = some r → s.stimNow.rst = false → r.wcnt ≤ s.build.nWait - 1 → s.build.nDeb - 1 < r.dcnt →
      step s = .fault (.counterRange .dcnt r.dcnt)) ∧
    (∀ r, s.regs = some r → s.stimNow.rst = false → s.build.nWait - 1 < r.wcnt → s.build.nDeb - 1 < r.dcnt →
      ∃ c v, step s = .fault (.counterRange c v)) ∧
    (∀ r, s.regs = some r → s.stimNow.rst = false → r.wcnt ≤ s.build.nWait - 1 → r.dcnt ≤ s.build.nDeb - 1 →
      (r.state = .advanceEarly ∨ r.state = .advancePeriod) → 10 ≤ r.digit.toNat →
      step s = .fault (.digitDomain r.digit)) ∧
    (∀ i u r, fetch s = .next i → exec i s = .next u → u.regs = some r → 10 ≤ r.digit.toNat →
      step s = .fault (.romDomain r.digit)) ∧
    (s.stimNow.rst = true → ∃ t, step s = .next t)

/-- A build that breaks a constraint of R7 is refused: no cycle and no row runs in it (R105). -/
def Obligations.IllegalBuildsAreRefused : Prop :=
  ∀ s : State,
    ¬(1 ≤ s.build.nWait ∧ 1 ≤ s.build.nDeb ∧ (s.build.nWait ≤ 2 ^ s.build.wWait ∧ 1 ≤ s.build.wWait) ∧
      (s.build.nDeb ≤ 2 ^ s.build.wDeb ∧ 1 ≤ s.build.wDeb) ∧ 7 ≤ s.build.portW) →
    step s = .refused .illegalBuild ∧ ∀ i : Instr, exec i s = .refused .illegalBuild

/-! ## The display -/

/-- `RENDER` completes for every digit of the domain and drives the complement of its pattern; nothing else changes.
Out of the domain it raises `ROM_DOMAIN`, before the first reset `UNINIT`. No digit drives all segments off (R86). -/
def Obligations.RenderDrivesTheComplement : Prop :=
  (∀ (s : State) (r : Regs), s.build.wf = true → s.regs = some r → r.digit.toNat ≤ 9 →
    ∃ p, romRead r.digit = .ok p ∧ exec .render s = .next { s with segN := some (~~~p &&& 0x7F#7) }) ∧
  (∀ (s : State) (r : Regs), s.build.wf = true → s.regs = some r → 10 ≤ r.digit.toNat →
    exec .render s = .fault (.romDomain r.digit)) ∧
  (∀ s : State, s.build.wf = true → s.regs = none → exec .render s = .fault (.uninit .digit)) ∧
  (∀ (d : Digit) (p : Pattern), romRead d = .ok p →
    ~~~p &&& 0x7F#7 ≠ 0x7F#7 ∧ (~~~p &&& 0x7F#7 = 0x00#7 ↔ d = 8#4))

/-- `PORT_MERGE` completes for every digit of the domain: bits 6 down to 0 of the port are `seg_n`, the bits above
are those of `other`, which is the same as the masked read-modify-write of the port; nothing else changes (R89). -/
def Obligations.PortMergeComposesThePort : Prop :=
  ∀ (s : State) (r : Regs), s.build.wf = true → s.regs = some r → r.digit.toNat ≤ 9 →
    ∃ p out, romRead r.digit = .ok p ∧ exec .portMerge s = .next { s with portOut := some out } ∧
      out < 2 ^ s.build.portW ∧
      (∀ k, k < 7 → out.testBit k = (~~~p &&& 0x7F#7).getLsbD k) ∧
      (∀ k, 7 ≤ k → k < s.build.portW → out.testBit k = s.otherNow.testBit k) ∧
      out = (mergeMasked (~~~p &&& 0x7F#7) (BitVec.ofNat s.build.portW s.otherNow)).toNat ∧
      (s.build.portW = 7 → out = (~~~p &&& 0x7F#7).toNat)

/-- `PORT_MERGE` raises what reading `seg_n` raises: `ROM_DOMAIN` for a digit out of the domain, `UNINIT` before the
first reset (R27, R86, R89; vector M7). -/
def Obligations.PortMergeFaultsWhenSegNDoes : Prop :=
  (∀ (s : State) (r : Regs), s.build.wf = true → s.regs = some r → 10 ≤ r.digit.toNat →
    exec .portMerge s = .fault (.romDomain r.digit)) ∧
  (∀ s : State, s.build.wf = true → s.regs = none → ∃ n, exec .portMerge s = .fault (.uninit n))

/-- The slice form and the masked form of the merge agree on every port of at least 7 bits (R89, R42). -/
def Obligations.MergeFormsAgree : Prop :=
  ∀ (n : Nat) (segN : Pattern) (port : BitVec n), 7 ≤ n → mergeSlice segN port = mergeMasked segN port

/-- The display never shows a digit other than the one in `digit`: after every cycle, from every state, `seg_n` is the
drive value of the new digit (R87, an inference of the spec from R86, R78 and R79). -/
def Obligations.EveryStepShowsTheDigit : Prop :=
  ∀ s t : State, step s = .next t →
    ∃ r p, t.regs = some r ∧ romRead r.digit = .ok p ∧ t.segN = some (~~~p &&& 0x7F#7)

/-- No output is ever read back: what the outputs show before a cycle changes nothing about it (R90). -/
def Obligations.OutputsAreNeverReadBack : Prop :=
  ∀ (s : State) (a b : Option Pattern) (c : Option Nat),
    step { s with seg := a, segN := b, portOut := c } = step s

/-! ## Invariants and the machine as a whole -/

/-- Every cycle keeps the invariant: a legal build, the ranges of R29, and outputs that show the digit (R29, R87). -/
def Obligations.StepKeepsTheInvariant : Prop :=
  ∀ s t : State, s.Inv → step s = .next t → t.Inv

/-- After the first reset no fault can be reached, whatever the inputs are: every run goes on for any number of cycles
and stays in the invariant (R93, R29, R104). -/
def Obligations.RunsNeverFaultAfterReset : Prop :=
  ∀ (n : Nat) (s : State), s.Inv → s.regs ≠ none → ∃ t, run n s = .next t ∧ t.Inv ∧ t.regs ≠ none

/-- While an edge is being checked `prev` is 1, and the periodic advance is due only after the last iteration (R70,
R74, R76). -/
def Obligations.EdgeCheckPhaseIsKept : Prop :=
  ∀ (s t : State) (r r' : Regs), s.regs = some r → r.Phase s.build → step s = .next t → t.regs = some r' →
    r'.Phase t.build

/-- With its registers in range, a cycle with `rst` = 0 goes on and does to the registers what the source's loop does
(R68 to R79); the parameters are kept and the inputs of the cycle are gone. -/
def Obligations.MachineRefinesTheLoop : Prop :=
  ∀ (s : State) (r : Regs), s.build.wf = true → s.regs = some r → r.InRange s.build → s.stimNow.rst = false →
    ∃ t, step s = .next t ∧ t.regs = some (loopStep s.build s.stimNow.btn r) ∧ t.build = s.build ∧
      t.stim = s.stim.tail ∧ t.others = s.others.tail

/-- The frame of every row: none touches the parameters or the inputs; a transition leaves the outputs alone, a ROM
lookup writes `seg` only, `RENDER` writes `seg_n` only, `PORT_MERGE` writes the port only (R10, R31, R36, R90). -/
def Obligations.FrameOfEveryRow : Prop :=
  ∀ (i : Instr) (s t : State), exec i s = .next t →
    t.build = s.build ∧ t.stim = s.stim ∧ t.others = s.others ∧ t.cycle = s.cycle ∧
    ((∃ c, encode i = some (.condWord c)) → t.seg = s.seg ∧ t.segN = s.segN ∧ t.portOut = s.portOut) ∧
    ((∃ d, encode i = some (.romAddr d)) → t.regs = s.regs ∧ t.segN = s.segN ∧ t.portOut = s.portOut) ∧
    (i = .render → t.regs = s.regs ∧ t.seg = s.seg ∧ t.portOut = s.portOut) ∧
    (i = .portMerge → t.regs = s.regs ∧ t.seg = s.seg ∧ t.segN = s.segN)

/-- "Only the two advance transitions and reset write" `digit` (R15). -/
def Obligations.OnlyAdvancesAndResetWriteDigit : Prop :=
  ∀ (i : Instr) (s t : State) (r r' : Regs), exec i s = .next t → s.regs = some r → t.regs = some r' →
    r'.digit ≠ r.digit →
    (∃ b p w d, i = .tAdvEarly b p w d) ∨ (∃ b p w d, i = .tAdvPeriod b p w d) ∨
      (∃ c b p w d, i = .reset c b p w d ∧ r'.digit = 0#4)

/-- Only an IDLE cycle and reset write `prev`: an IDLE cycle writes the raw sample, reset writes 0, and the
confirmation sample does not write it (R17). -/
def Obligations.SampleCyclesWritePrev : Prop :=
  ∀ (s t : State) (r r' : Regs), step s = .next t → s.regs = some r → t.regs = some r' →
    (s.stimNow.rst = false → r.state = .idle → r'.prev = s.stimNow.btn) ∧
    (s.stimNow.rst = false → r.state ≠ .idle → r'.prev = r.prev) ∧
    (s.stimNow.rst = true → r'.prev = false)

/-- Which rows write the counters: `wcnt` is written by the rows that end an iteration, the periodic advance and
reset (R19); `dcnt` by the CONFIRMING rows, the rising edge and reset (R20). -/
def Obligations.CounterWriters : Prop :=
  ∀ (i : Instr) (s t : State) (r r' : Regs), exec i s = .next t → s.regs = some r → t.regs = some r' →
    (r'.wcnt ≠ r.wcnt →
      (∃ p w d, i = .tIdleLow p w d) ∨ (∃ w d, i = .tIdleHeld w d) ∨ (∃ p w, i = .tConfNoise p w) ∨
      (∃ b p w d, i = .tAdvEarly b p w d) ∨ (∃ b p w d, i = .tAdvPeriod b p w d) ∨
      (∃ c b p w d, i = .reset c b p w d)) ∧
    (r'.dcnt ≠ r.dcnt →
      (∃ w d, i = .tIdleEdge w d) ∨ (∃ b p w, i = .tConfWait b p w) ∨ (∃ p w, i = .tConfPass p w) ∨
      (∃ p w, i = .tConfNoise p w) ∨ (∃ c b p w d, i = .reset c b p w d))

/-! ## What cannot be observed -/

/-- Reset cycles, advance cycles, and CONFIRMING cycles before the last do not read the button: flipping it changes
nothing (R114). -/
def Obligations.BlindCyclesIgnoreTheButton : Prop :=
  ∀ (s : State) (r : Regs) (x : Stim) (q : List Stim), s.regs = some r → s.stim = x :: q →
    (x.rst = true ∨ r.state = .advanceEarly ∨ r.state = .advancePeriod ∨
      (r.state = .confirming ∧ r.dcnt ≠ s.build.nDeb - 1)) →
    step { s with stim := ⟨x.rst, !x.btn⟩ :: q } = step s

/-- The counter widths change no result: two legal builds that differ in the widths alone take the same cycle
(R71, D11). -/
def Obligations.CounterWidthsAreNotObservable : Prop :=
  ∀ (s t : State) (w v : Nat), s.build.wf = true → { s.build with wWait := w, wDeb := v }.wf = true →
    step s = .next t →
    step { s with build := { s.build with wWait := w, wDeb := v } } =
      .next { t with build := { s.build with wWait := w, wDeb := v } }

/-! ## Sequences of cycles -/

/-- With the button not asserted, `K` periods take `K * (N_WAIT + 1)` cycles and advance the digit by `K` modulo 10,
from any digit at the start of a period (R84, R116; from reset, R108). -/
def Obligations.QuietPeriodsCountTheDigit : Prop :=
  ∀ (s : State) (r : Regs) (K : Nat) (q : List Stim), s.build.wf = true → s.regs = some r → r.InRange s.build →
    r.state = .idle → r.wcnt = 0 → 1 ≤ K →
    s.stim = List.replicate (K * (s.build.nWait + 1)) ⟨false, false⟩ ++ q →
    ∃ t, run (K * (s.build.nWait + 1)) s = .next t ∧
      t.regs = some { digit := BitVec.ofNat 4 ((r.digit.toNat + K) % 10), prev := false, state := .idle,
                      wcnt := 0, dcnt := 0 } ∧ t.stim = q

/-- A confirmed press: the early advance is the transition `N_DEB + 1` cycles after the edge sample's, whatever the
button does in between, and it ends the iteration (R116, R114, R78). -/
def Obligations.ConfirmedPressAdvancesEarly : Prop :=
  ∀ (s : State) (r : Regs) (mid : List Stim) (x : Stim) (q : List Stim), s.build.wf = true → s.regs = some r →
    r.InRange s.build → r.state = .idle → r.prev = false →
    mid.length = s.build.nDeb - 1 → (∀ y ∈ mid, y.rst = false) → x.rst = false →
    s.stim = ⟨false, true⟩ :: (mid ++ ⟨false, true⟩ :: x :: q) →
    ∃ u t, run (s.build.nDeb + 1) s = .next u ∧
      u.regs = some { r with prev := true, dcnt := 0, state := .advanceEarly } ∧
      step u = .next t ∧
      t.regs = some (closeIteration s.build { r with digit := bump r.digit, prev := true, dcnt := 0 }) ∧
      t.stim = q

/-- A rejected edge: an edge whose confirmation sample is not asserted costs `1 + N_DEB` cycles, ends the iteration
and leaves the digit (R116, R77). -/
def Obligations.NoiseLeavesTheDigit : Prop :=
  ∀ (s : State) (r : Regs) (mid : List Stim) (q : List Stim), s.build.wf = true → s.regs = some r →
    r.InRange s.build → r.state = .idle → r.prev = false →
    mid.length = s.build.nDeb - 1 → (∀ y ∈ mid, y.rst = false) →
    s.stim = ⟨false, true⟩ :: (mid ++ ⟨false, false⟩ :: q) →
    ∃ t, run (s.build.nDeb + 1) s = .next t ∧
      t.regs = some (closeIteration s.build { r with prev := true, dcnt := 0 }) ∧ t.stim = q

/-- The double advance: an early advance in the last iteration of a period is followed by the periodic advance in the
very next cycle, and the digit between them is shown for one cycle (R80). -/
def Obligations.DoubleAdvance : Prop :=
  ∀ (s : State) (r : Regs) (x y : Stim) (q : List Stim), s.build.wf = true → s.regs = some r →
    r.InRange s.build → r.state = .advanceEarly → r.wcnt = s.build.nWait - 1 → x.rst = false → y.rst = false →
    s.stim = x :: y :: q →
    ∃ t u p, step s = .next t ∧
      romRead (BitVec.ofNat 4 ((r.digit.toNat + 1) % 10)) = .ok p ∧ t.segN = some (~~~p &&& 0x7F#7) ∧
      step t = .next u ∧
      u.regs = some { r with digit := BitVec.ofNat 4 ((r.digit.toNat + 2) % 10), state := .idle, wcnt := 0 }

/-- A button held asserted after its sample never starts another confirmation, however long it is held (R81, R73). -/
def Obligations.HeldButtonNeverRetriggers : Prop :=
  ∀ (n : Nat) (s : State) (r : Regs) (q : List Stim), s.build.wf = true → s.regs = some r → r.InRange s.build →
    r.prev = true → (r.state = .idle ∨ r.state = .advancePeriod) →
    s.stim = List.replicate n ⟨false, true⟩ ++ q →
    ∃ t r', run n s = .next t ∧ t.regs = some r' ∧ r'.prev = true ∧
      (r'.state = .idle ∨ r'.state = .advancePeriod)

/-- A press after noise is missed: when the confirmation fails and the button is asserted again at the next IDLE
sample, that sample is read as held, both in the middle of a period and, after the periodic advance, at its end
(R82). -/
def Obligations.MissedPressAfterNoise : Prop :=
  ∀ (s : State) (r : Regs) (x : Stim) (q : List Stim), s.build.wf = true → s.regs = some r → r.InRange s.build →
    r.Phase s.build → r.state = .confirming → r.dcnt = s.build.nDeb - 1 → x.rst = false →
    (r.wcnt + 1 < s.build.nWait → s.stim = ⟨false, false⟩ :: ⟨false, true⟩ :: q →
      ∃ t w d, step s = .next t ∧ fetch t = .next (.tIdleHeld w d)) ∧
    (r.wcnt = s.build.nWait - 1 → s.stim = ⟨false, false⟩ :: x :: ⟨false, true⟩ :: q →
      ∃ t u w d, step s = .next t ∧ step t = .next u ∧ fetch u = .next (.tIdleHeld w d))

/-- An edge check always ends within its iteration: from the first CONFIRMING cycle, with no reset, the block is back
in IDLE or at ADVANCE_PERIOD after at most `N_DEB + 1` further cycles (R85). -/
def Obligations.EdgeCheckEnds : Prop :=
  ∀ (s : State) (r : Regs) (xs q : List Stim), s.build.wf = true → s.regs = some r → r.InRange s.build →
    r.state = .confirming → r.dcnt = 0 → xs.length = s.build.nDeb + 1 → (∀ x ∈ xs, x.rst = false) →
    s.stim = xs ++ q →
    ∃ k t r', k ≤ s.build.nDeb + 1 ∧ run k s = .next t ∧ t.regs = some r' ∧
      (r'.state = .idle ∨ r'.state = .advancePeriod)

/-! ## How a run is set up -/

/-- The stimulus notation: the words of the statements, the expansion of the pseudo-statements, the encoding of a
program as the words of its statements in order, and what a program fixes (R51). -/
def Obligations.StimulusNotation : Prop :=
  (expandStmt .rst).map stimWord = [0b10#2] ∧ (expandStmt .b0).map stimWord = [0b00#2] ∧
  (expandStmt .b1).map stimWord = [0b01#2] ∧ (expandStmt .rst1).map stimWord = [0b11#2] ∧
  (∀ k, expandStmt (.b0x k) = (List.replicate k Stmt.b0).flatMap expandStmt) ∧
  (∀ k, expandStmt (.b1x k) = (List.replicate k Stmt.b1).flatMap expandStmt) ∧
  (∀ k, expandStmt (.idle k) = expandStmt (.b0x k)) ∧ (∀ k, expandStmt (.hold k) = expandStmt (.b1x k)) ∧
  expandStmt .boot = expandStmt .rst ∧
  (∀ w : BitVec 2, stimWord (stimOfWord w) = w) ∧
  (∀ p : StimProgram, encodeProgram p = p.body.flatMap fun x => (expandStmt x).map stimWord) ∧
  (∀ (s : State) (p : StimProgram), (s.loadProgram p).build.nWait = p.nWait ∧
    (s.loadProgram p).build.nDeb = p.nDeb ∧ (s.loadProgram p).stim.map stimWord = encodeProgram p ∧
    (s.loadProgram p).regs = s.regs)

/-- A legal program before a legal build gives a legal build. That its counters are widened is the model's choice
(log entry 11); the constraints are those of R7. -/
def Obligations.LoadedProgramIsLegal : Prop :=
  ∀ (s : State) (p : StimProgram), s.build.wf = true → p.wf = true → (s.loadProgram p).build.wf = true

/-- A step runs the decoded transition: after the first reset, the row that the condition word decodes to, unless the
decoder stops on a counter out of range (R46), and before it, on `rst` = 1, `RESET`; then the inputs of the
cycle are gone and the outputs settle on the new digit (R68, R87). -/
def Obligations.StepRunsTheDecodedInstruction : Prop :=
  (∀ (s : State) (r : Regs), s.build.wf = true → s.regs = some r →
    (s.stimNow.rst = true ∨ (r.wcnt ≤ s.build.nWait - 1 ∧ r.dcnt ≤ s.build.nDeb - 1)) →
    step s = andThen (exec (decodeCond (condWord s.build r s.stimNow)) s) fun t => settle t.nextCycle) ∧
  (∀ (s : State) (r : Regs), s.build.wf = true → s.regs = some r → s.stimNow.rst = false →
    ¬(r.wcnt ≤ s.build.nWait - 1 ∧ r.dcnt ≤ s.build.nDeb - 1) → ∃ c v, step s = .fault (.counterRange c v)) ∧
  (∀ s : State, s.build.wf = true → s.regs = none → s.stimNow.rst = true →
    step s = andThen (exec (decodeCond 0x40#7) s) fun t => settle t.nextCycle) ∧
  (∀ t : State, t.nextCycle = { t with stim := t.stim.tail, others := t.others.tail, cycle := t.cycle + 1 }) ∧
  (∀ (t : State) (r : Regs) (p : Pattern), t.build.wf = true → t.regs = some r → romRead r.digit = .ok p →
    settle t = .next { t with
      seg := some p
      segN := some (~~~p &&& 0x7F#7)
      portOut := some (mergePort t.build.portW (~~~p &&& 0x7F#7) t.otherNow) })

/-- The model's choice of where a word of the opcode table is placed (log entries 9 and 10): a 7-bit word becomes the
condition word of the next cycle; a word below 16 of any other width is read as a ROM address and becomes the digit,
which the next cycle keeps and looks up: a word of 0 to 9 puts its pattern on `seg`, one of 10 to 15 stops the step
with `ROM_DOMAIN`. -/
def Obligations.PlacedWordRunsNext : Prop :=
  ∀ (s : State) (nbits w : Nat),
    (w < 128 → fetch (s.withFetchWord nbits w) = .next (decodeCond (BitVec.ofNat 7 w))) ∧
    (nbits ≠ 7 → w < 16 → decodeTableWord nbits w = some (decodeRom (BitVec.ofNat 4 w))) ∧
    (nbits ≠ 7 → w < 10 → ∃ t r p, step (s.withFetchWord nbits w) = .next t ∧ t.regs = some r ∧
      r.digit = BitVec.ofNat 4 w ∧ romRead (BitVec.ofNat 4 w) = .ok p ∧ t.seg = some p) ∧
    (nbits ≠ 7 → 10 ≤ w → w < 16 →
      step (s.withFetchWord nbits w) = .fault (.romDomain (BitVec.ofNat 4 w)))

/-- The decoder's comparisons and its range check: `wlast` and `dlast`, and, with `rst` = 0, `COUNTER_RANGE` with the
counter and its value for a counter above its range, in whatever state; with both in range, or with `rst` = 1, the
decoder goes on (R46). Which counter is recorded when both are out of range the spec leaves open. -/
def Obligations.DecoderChecksTheCounters : Prop :=
  (∀ (b : Build) (r : Regs),
    (wlast b r = true ↔ r.wcnt = b.nWait - 1) ∧ (dlast b r = true ↔ r.dcnt = b.nDeb - 1)) ∧
  ∀ (s : State) (r : Regs), s.build.wf = true → s.regs = some r →
    (s.stimNow.rst = false → s.build.nWait - 1 < r.wcnt → r.dcnt ≤ s.build.nDeb - 1 →
      fetch s = .fault (.counterRange .wcnt r.wcnt)) ∧
    (s.stimNow.rst = false → r.wcnt ≤ s.build.nWait - 1 → s.build.nDeb - 1 < r.dcnt →
      fetch s = .fault (.counterRange .dcnt r.dcnt)) ∧
    (s.stimNow.rst = false → s.build.nWait - 1 < r.wcnt → s.build.nDeb - 1 < r.dcnt →
      ∃ c v, fetch s = .fault (.counterRange c v)) ∧
    (r.wcnt ≤ s.build.nWait - 1 → r.dcnt ≤ s.build.nDeb - 1 → ∃ i, fetch s = .next i) ∧
    (s.stimNow.rst = true → ∃ c b p w d, fetch s = .next (.reset c b p w d))
end

