-- ==== Sys2Proof/Laws/State.lean ====
section
/-! SUPPORT. One lemma per field per update of the state and of the registers, all true by rfl. -/

namespace Sys2Proof.Machine

@[simp] theorem State.setRegs_build (s : State) (r : Regs) : (s.setRegs r).build = s.build := rfl
@[simp] theorem State.setRegs_regs (s : State) (r : Regs) : (s.setRegs r).regs = some r := rfl
@[simp] theorem State.setRegs_seg (s : State) (r : Regs) : (s.setRegs r).seg = s.seg := rfl
@[simp] theorem State.setRegs_segN (s : State) (r : Regs) : (s.setRegs r).segN = s.segN := rfl
@[simp] theorem State.setRegs_portOut (s : State) (r : Regs) : (s.setRegs r).portOut = s.portOut := rfl
@[simp] theorem State.setRegs_stim (s : State) (r : Regs) : (s.setRegs r).stim = s.stim := rfl
@[simp] theorem State.setRegs_others (s : State) (r : Regs) : (s.setRegs r).others = s.others := rfl
@[simp] theorem State.setRegs_cycle (s : State) (r : Regs) : (s.setRegs r).cycle = s.cycle := rfl

@[simp] theorem State.setSeg_build (s : State) (p : Pattern) : (s.setSeg p).build = s.build := rfl
@[simp] theorem State.setSeg_regs (s : State) (p : Pattern) : (s.setSeg p).regs = s.regs := rfl
@[simp] theorem State.setSeg_seg (s : State) (p : Pattern) : (s.setSeg p).seg = some p := rfl
@[simp] theorem State.setSeg_segN (s : State) (p : Pattern) : (s.setSeg p).segN = s.segN := rfl
@[simp] theorem State.setSeg_portOut (s : State) (p : Pattern) : (s.setSeg p).portOut = s.portOut := rfl
@[simp] theorem State.setSeg_stim (s : State) (p : Pattern) : (s.setSeg p).stim = s.stim := rfl
@[simp] theorem State.setSeg_others (s : State) (p : Pattern) : (s.setSeg p).others = s.others := rfl
@[simp] theorem State.setSeg_cycle (s : State) (p : Pattern) : (s.setSeg p).cycle = s.cycle := rfl

@[simp] theorem State.setSegN_build (s : State) (p : Pattern) : (s.setSegN p).build = s.build := rfl
@[simp] theorem State.setSegN_regs (s : State) (p : Pattern) : (s.setSegN p).regs = s.regs := rfl
@[simp] theorem State.setSegN_seg (s : State) (p : Pattern) : (s.setSegN p).seg = s.seg := rfl
@[simp] theorem State.setSegN_segN (s : State) (p : Pattern) : (s.setSegN p).segN = some p := rfl
@[simp] theorem State.setSegN_portOut (s : State) (p : Pattern) : (s.setSegN p).portOut = s.portOut := rfl
@[simp] theorem State.setSegN_stim (s : State) (p : Pattern) : (s.setSegN p).stim = s.stim := rfl
@[simp] theorem State.setSegN_others (s : State) (p : Pattern) : (s.setSegN p).others = s.others := rfl
@[simp] theorem State.setSegN_cycle (s : State) (p : Pattern) : (s.setSegN p).cycle = s.cycle := rfl

@[simp] theorem State.setPortOut_build (s : State) (v : Nat) : (s.setPortOut v).build = s.build := rfl
@[simp] theorem State.setPortOut_regs (s : State) (v : Nat) : (s.setPortOut v).regs = s.regs := rfl
@[simp] theorem State.setPortOut_seg (s : State) (v : Nat) : (s.setPortOut v).seg = s.seg := rfl
@[simp] theorem State.setPortOut_segN (s : State) (v : Nat) : (s.setPortOut v).segN = s.segN := rfl
@[simp] theorem State.setPortOut_portOut (s : State) (v : Nat) : (s.setPortOut v).portOut = some v := rfl
@[simp] theorem State.setPortOut_stim (s : State) (v : Nat) : (s.setPortOut v).stim = s.stim := rfl
@[simp] theorem State.setPortOut_others (s : State) (v : Nat) : (s.setPortOut v).others = s.others := rfl
@[simp] theorem State.setPortOut_cycle (s : State) (v : Nat) : (s.setPortOut v).cycle = s.cycle := rfl

@[simp] theorem State.nextCycle_build (s : State) : (s.nextCycle).build = s.build := rfl
@[simp] theorem State.nextCycle_regs (s : State) : (s.nextCycle).regs = s.regs := rfl
@[simp] theorem State.nextCycle_seg (s : State) : (s.nextCycle).seg = s.seg := rfl
@[simp] theorem State.nextCycle_segN (s : State) : (s.nextCycle).segN = s.segN := rfl
@[simp] theorem State.nextCycle_portOut (s : State) : (s.nextCycle).portOut = s.portOut := rfl
@[simp] theorem State.nextCycle_stim (s : State) : (s.nextCycle).stim = s.stim.tail := rfl
@[simp] theorem State.nextCycle_others (s : State) : (s.nextCycle).others = s.others.tail := rfl
@[simp] theorem State.nextCycle_cycle (s : State) : (s.nextCycle).cycle = s.cycle + 1 := rfl

@[simp] theorem Regs.sample_digit (r : Regs) (b : Bool) : (r.sample b).digit = r.digit := rfl
@[simp] theorem Regs.sample_prev (r : Regs) (b : Bool) : (r.sample b).prev = b := rfl
@[simp] theorem Regs.sample_state (r : Regs) (b : Bool) : (r.sample b).state = r.state := rfl
@[simp] theorem Regs.sample_wcnt (r : Regs) (b : Bool) : (r.sample b).wcnt = r.wcnt := rfl
@[simp] theorem Regs.sample_dcnt (r : Regs) (b : Bool) : (r.sample b).dcnt = r.dcnt := rfl

@[simp] theorem countIter_digit (w : Bool) (r : Regs) : (countIter w r).digit = r.digit := by cases w <;> rfl
@[simp] theorem countIter_prev (w : Bool) (r : Regs) : (countIter w r).prev = r.prev := by cases w <;> rfl
@[simp] theorem countIter_dcnt (w : Bool) (r : Regs) : (countIter w r).dcnt = r.dcnt := by cases w <;> rfl
@[simp] theorem countIter_state (w : Bool) (r : Regs) :
    (countIter w r).state = if w then .advancePeriod else .idle := by cases w <;> rfl
@[simp] theorem countIter_wcnt (w : Bool) (r : Regs) :
    (countIter w r).wcnt = if w then r.wcnt else r.wcnt + 1 := by cases w <;> rfl

/-- The inputs and the parameters an update of registers or outputs leaves alone. -/
@[simp] theorem State.setRegs_stimNow (s : State) (r : Regs) : (s.setRegs r).stimNow = s.stimNow := rfl
@[simp] theorem State.setRegs_otherNow (s : State) (r : Regs) : (s.setRegs r).otherNow = s.otherNow := rfl
@[simp] theorem State.setSeg_otherNow (s : State) (p : Pattern) : (s.setSeg p).otherNow = s.otherNow := rfl
@[simp] theorem State.setSegN_otherNow (s : State) (p : Pattern) : (s.setSegN p).otherNow = s.otherNow := rfl
@[simp] theorem State.setPortOut_otherNow (s : State) (v : Nat) : (s.setPortOut v).otherNow = s.otherNow := rfl

/-- The inputs of a cycle for which a word is queued. -/
theorem State.stimNow_of_cons {s : State} {x : Stim} {q : List Stim} (h : s.stim = x :: q) : s.stimNow = x := by
  simp [State.stimNow, h]

theorem State.otherNow_of_cons {s : State} {x : Nat} {q : List Nat} (h : s.others = x :: q) : s.otherNow = x := by
  simp [State.otherNow, h]

end Sys2Proof.Machine
end

