-- ==== Sys2Proof/Laws/Ops.lean ====
section
/-! SUPPORT. What each shared operation can do, said once: its value where it goes on, and the inversion of a next
state. -/

namespace Sys2Proof.Machine

section Outcomes

variable {σ τ : Type} {k : σ → Host.Outcome τ Fault Refusal}

@[simp] theorem andThen_next (s : σ) : andThen (.next s) k = k s := rfl
@[simp] theorem andThen_fault (f : Fault) : andThen (.fault f) k = .fault f := rfl
@[simp] theorem andThen_refused (r : Refusal) : andThen (.refused r) k = .refused r := rfl

theorem andThen_eq_next {o : Host.Outcome σ Fault Refusal} {t : τ} :
    andThen o k = .next t ↔ ∃ s, o = .next s ∧ k s = .next t := by
  cases o <;> simp

theorem onBuild_of_wf {s : State} (h : s.build.wf = true) (o : Host.Outcome σ Fault Refusal) :
    onBuild s o = o := by simp [onBuild, h]

theorem onBuild_of_not_wf {s : State} (h : s.build.wf = false) (o : Host.Outcome σ Fault Refusal) :
    onBuild s o = .refused .illegalBuild := by simp [onBuild, h]

theorem onBuild_eq_next {s : State} {o : Host.Outcome σ Fault Refusal} {t : σ} :
    onBuild s o = .next t ↔ s.build.wf = true ∧ o = .next t := by
  by_cases h : s.build.wf = true <;> simp [onBuild, h]

theorem withRegs_of_some {s : State} {r : Regs} (h : s.regs = some r) (n : RegName)
    (g : Regs → Host.Outcome σ Fault Refusal) : withRegs s n g = g r := by simp [withRegs, h]

theorem withRegs_of_none {s : State} (h : s.regs = none) (n : RegName)
    (g : Regs → Host.Outcome σ Fault Refusal) : withRegs s n g = .fault (.uninit n) := by simp [withRegs, h]

theorem withRegs_eq_next {s : State} {n : RegName} {g : Regs → Host.Outcome σ Fault Refusal} {t : σ} :
    withRegs s n g = .next t ↔ ∃ r, s.regs = some r ∧ g r = .next t := by
  cases h : s.regs <;> simp [withRegs, h]

end Outcomes

/-- The least width is wide enough, and is a legal width (R7). -/
theorem widthFor_spec (n : Nat) : n ≤ 2 ^ widthFor n ∧ 1 ≤ widthFor n := by
  have h := Nat.lt_log2_self (n := n - 1)
  simp only [widthFor]
  omega

/-- A legal build has counters that can hold at least one iteration and one cycle of delay. -/
theorem Build.wf_iff (b : Build) : b.wf = true ↔
    1 ≤ b.nWait ∧ 1 ≤ b.nDeb ∧ (b.nWait ≤ 2 ^ b.wWait ∧ 1 ≤ b.wWait) ∧ (b.nDeb ≤ 2 ^ b.wDeb ∧ 1 ≤ b.wDeb) ∧
      7 ≤ b.portW := by
  simp [Build.wf, Build.nWaitOk, Build.nDebOk, Build.wWaitOk, Build.wDebOk, Build.portWOk, and_assoc]

/-- Every digit of the domain has a pattern (R52). -/
theorem romLookup_of_le {d : Digit} (h : d.toNat ≤ 9) : ∃ p, romLookup d = some p := by
  revert h; revert d; decide

/-- No address outside the domain has one (R65). -/
theorem romLookup_eq_none {d : Digit} : romLookup d = none ↔ 10 ≤ d.toNat := by
  revert d; decide

theorem romRead_of_some {d : Digit} {p : Pattern} (h : romLookup d = some p) : romRead d = .ok p := by
  simp [romRead, h]

theorem romRead_eq_ok {d : Digit} {p : Pattern} : romRead d = .ok p ↔ romLookup d = some p := by
  cases h : romLookup d <;> simp [romRead, h]

theorem romRead_of_ge {d : Digit} (h : 10 ≤ d.toNat) : romRead d = .error (.romDomain d) := by
  simp [romRead, romLookup_eq_none.mpr h]

/-- The value of `inc10` on the domain (R69). -/
theorem inc10_of_le {d : Digit} (h : d.toNat ≤ 9) : inc10 d = .ok (BitVec.ofNat 4 ((d.toNat + 1) % 10)) := by
  have : ∀ d : Digit, d.toNat ≤ 9 → (if d = 9#4 then 0#4 else d + 1#4) = BitVec.ofNat 4 ((d.toNat + 1) % 10) := by
    decide
  have h' : ¬ 10 ≤ d.toNat := by omega
  simp only [inc10, h', if_false, ← this d h]
  split <;> rfl

theorem inc10_of_ge {d : Digit} (h : 10 ≤ d.toNat) : inc10 d = .error (.digitDomain d) := by
  simp [inc10, h]

/-- `inc10` answers only on the domain, and stays in it (R16, R69). -/
theorem inc10_eq_ok {d n : Digit} :
    inc10 d = .ok n ↔ d.toNat ≤ 9 ∧ n = BitVec.ofNat 4 ((d.toNat + 1) % 10) := by
  rcases Nat.lt_or_ge 9 d.toNat with h | h
  · simp [inc10_of_ge h]; omega
  · simp [inc10_of_le h, h, eq_comm]

theorem inc10_le {d n : Digit} (h : inc10 d = .ok n) : n.toNat ≤ 9 := by
  obtain ⟨-, rfl⟩ := inc10_eq_ok.mp h
  rw [BitVec.toNat_ofNat]
  omega

theorem checkWait_of_le {b : Build} {r : Regs} (h : r.wcnt ≤ b.nWait - 1) : checkWait b r = .ok () := by
  simp [checkWait]; omega

theorem checkWait_of_gt {b : Build} {r : Regs} (h : b.nWait - 1 < r.wcnt) :
    checkWait b r = .error (.counterRange .wcnt r.wcnt) := by
  simp [checkWait, h]

theorem checkDeb_of_le {b : Build} {r : Regs} (h : r.dcnt ≤ b.nDeb - 1) : checkDeb b r = .ok () := by
  simp [checkDeb]; omega

theorem checkDeb_of_gt {b : Build} {r : Regs} (h : b.nDeb - 1 < r.dcnt) :
    checkDeb b r = .error (.counterRange .dcnt r.dcnt) := by
  simp [checkDeb, h]

theorem checkDeb_eq_ok {b : Build} {r : Regs} {u : Unit} : checkDeb b r = .ok u ↔ r.dcnt ≤ b.nDeb - 1 := by
  rcases Nat.lt_or_ge (b.nDeb - 1) r.dcnt with h | h
  · simp [checkDeb_of_gt h]; omega
  · simp [checkDeb_of_le h, h]

theorem checkCounters_of_le {b : Build} {r : Regs} (hw : r.wcnt ≤ b.nWait - 1) (hd : r.dcnt ≤ b.nDeb - 1) :
    checkCounters b r = .ok () := by
  simp [checkCounters, checkWait_of_le hw, checkDeb_of_le hd]

theorem checkCounters_of_wait {b : Build} {r : Regs} (h : b.nWait - 1 < r.wcnt) :
    checkCounters b r = .error (.counterRange .wcnt r.wcnt) := by
  simp [checkCounters, checkWait_of_gt h]

theorem checkCounters_of_deb {b : Build} {r : Regs} (hw : r.wcnt ≤ b.nWait - 1) (h : b.nDeb - 1 < r.dcnt) :
    checkCounters b r = .error (.counterRange .dcnt r.dcnt) := by
  simp [checkCounters, checkWait_of_le hw, checkDeb_of_gt h]

/-- A counter out of range is recorded with its own value. -/
theorem checkCounters_of_out {b : Build} {r : Regs} (h : b.nWait - 1 < r.wcnt ∨ b.nDeb - 1 < r.dcnt) :
    checkCounters b r = .error (.counterRange .wcnt r.wcnt) ∨
      checkCounters b r = .error (.counterRange .dcnt r.dcnt) := by
  rcases Nat.lt_or_ge (b.nWait - 1) r.wcnt with hw | hw
  · exact .inl (checkCounters_of_wait hw)
  · exact .inr (checkCounters_of_deb hw (h.resolve_left (Nat.not_lt.mpr hw)))

theorem checkCounters_eq_ok {b : Build} {r : Regs} {u : Unit} :
    checkCounters b r = .ok u ↔ r.wcnt ≤ b.nWait - 1 ∧ r.dcnt ≤ b.nDeb - 1 := by
  by_cases h : r.wcnt ≤ b.nWait - 1 ∧ r.dcnt ≤ b.nDeb - 1
  · simp [checkCounters_of_le h.1 h.2, h]
  · rcases checkCounters_of_out (b := b) (r := r) (by omega) with e | e <;> simp [e, h]

theorem endIter_of_le {b : Build} {r : Regs} (h : r.wcnt ≤ b.nWait - 1) (w : Bool) :
    endIter b w r = .ok (countIter w r) := by
  simp [endIter, checkWait_of_le h]

theorem endIter_of_gt {b : Build} {r : Regs} (h : b.nWait - 1 < r.wcnt) (w : Bool) :
    endIter b w r = .error (.counterRange .wcnt r.wcnt) := by
  simp [endIter, checkWait_of_gt h]

theorem endIter_eq_ok {b : Build} {r r' : Regs} {w : Bool} :
    endIter b w r = .ok r' ↔ r.wcnt ≤ b.nWait - 1 ∧ r' = countIter w r := by
  rcases Nat.lt_or_ge (b.nWait - 1) r.wcnt with h | h
  · simp [endIter_of_gt h]; omega
  · simp [endIter_of_le h, h, eq_comm]

/-- A transition that computes its registers goes on with them and changes nothing else (R10). -/
theorem transition_of_ok {s : State} {r r' : Regs} {f : Build → Regs → Except Fault Regs}
    (hb : s.build.wf = true) (hr : s.regs = some r) (hf : f s.build r = .ok r') :
    transition s f = .next (s.setRegs r') := by
  simp [transition, onBuild_of_wf hb, withRegs_of_some hr, hf]

theorem transition_of_error {s : State} {r : Regs} {f : Build → Regs → Except Fault Regs} {e : Fault}
    (hb : s.build.wf = true) (hr : s.regs = some r) (hf : f s.build r = .error e) :
    transition s f = .fault e := by
  simp [transition, onBuild_of_wf hb, withRegs_of_some hr, hf]

theorem transition_of_none {s : State} {f : Build → Regs → Except Fault Regs}
    (hb : s.build.wf = true) (hr : s.regs = none) : transition s f = .fault (.uninit .state) := by
  simp [transition, onBuild_of_wf hb, withRegs_of_none hr]

theorem transition_of_not_wf {s : State} {f : Build → Regs → Except Fault Regs}
    (hb : s.build.wf = false) : transition s f = .refused .illegalBuild := by
  simp [transition, onBuild_of_not_wf hb]

/-- All a transition can do when it goes on. -/
theorem transition_eq_next {s t : State} {f : Build → Regs → Except Fault Regs} :
    transition s f = .next t ↔
      s.build.wf = true ∧ ∃ r r', s.regs = some r ∧ f s.build r = .ok r' ∧ t = s.setRegs r' := by
  simp only [transition, onBuild_eq_next, withRegs_eq_next]
  refine and_congr_right fun _ => ⟨?_, ?_⟩
  · rintro ⟨r, hr, h⟩
    cases hf : f s.build r with
    | error e => simp [hf] at h
    | ok r' => exact ⟨r, r', hr, hf, by simpa [hf] using h.symm⟩
  · rintro ⟨r, r', hr, hf, rfl⟩
    exact ⟨r, hr, by simp [hf]⟩

/-- All a ROM row can do when it goes on (R52, R105). -/
theorem romRow_eq_next {d : Digit} {s t : State} :
    romRow d s = .next t ↔ s.build.wf = true ∧ ∃ p, romLookup d = some p ∧ t = s.setSeg p := by
  rw [romRow, onBuild_eq_next]
  refine and_congr_right fun _ => ?_
  cases h : romLookup d <;> simp [romRead, h, eq_comm]

theorem romRow_of_ge {d : Digit} {s : State} (hb : s.build.wf = true) (hd : 10 ≤ d.toNat) :
    romRow d s = .fault (.romDomain d) := by
  simp [romRow, onBuild_of_wf hb, romRead_of_ge hd]

/-- Reading the drive value goes on with the drive value of the digit (R86). -/
theorem withDrive_of_le {s : State} {r : Regs} {p : Pattern} (hb : s.build.wf = true) (hr : s.regs = some r)
    (hp : romLookup r.digit = some p) (k : Pattern → Out) : withDrive s k = k (driveValue p) := by
  simp [withDrive, onBuild_of_wf hb, withRegs_of_some hr, romRead_of_some hp]

theorem withDrive_of_ge {s : State} {r : Regs} (hb : s.build.wf = true) (hr : s.regs = some r)
    (hd : 10 ≤ r.digit.toNat) (k : Pattern → Out) : withDrive s k = .fault (.romDomain r.digit) := by
  simp [withDrive, onBuild_of_wf hb, withRegs_of_some hr, romRead_of_ge hd]

theorem withDrive_eq_next {s t : State} {k : Pattern → Out} :
    withDrive s k = .next t ↔
      s.build.wf = true ∧ ∃ r p, s.regs = some r ∧ romLookup r.digit = some p ∧ k (driveValue p) = .next t := by
  simp only [withDrive, onBuild_eq_next, withRegs_eq_next]
  refine and_congr_right fun _ => ⟨?_, ?_⟩
  · rintro ⟨r, hr, h⟩
    cases hp : romLookup r.digit <;> simp [romRead, hp] at h
    exact ⟨r, _, hr, hp, h⟩
  · rintro ⟨r, p, hr, hp, h⟩
    exact ⟨r, hr, by simpa [romRead, hp] using h⟩

/-- The row an address selects looks that address up (R48). -/
theorem exec_decodeRom (d : Digit) (s : State) : exec (decodeRom d) s = romRow d s := by
  have h : ∀ n : Fin 16, exec (decodeRom (BitVec.ofFin n)) s = romRow (BitVec.ofFin n) s := by
    intro n
    fin_cases n <;> rfl
  exact h d.toFin

end Sys2Proof.Machine
end

