-- ==== Sys2Proof/Laws/Exec.lean ====
section
/-! SUPPORT. Each arm of exec in terms of its shared operation, and the registers each transition computes. -/

namespace Sys2Proof.Machine

theorem exec_reset (c : Fsm) (b p w d : Bool) (s : State) :
    exec (.reset c b p w d) s = onBuild s (.next (s.setRegs Regs.reset)) := rfl

theorem exec_tIdleLow (p w d : Bool) (s : State) :
    exec (.tIdleLow p w d) s = transition s fun b r => endIter b w (r.sample false) := rfl

theorem exec_tIdleHeld (w d : Bool) (s : State) :
    exec (.tIdleHeld w d) s = transition s fun b r => endIter b w (r.sample true) := rfl

theorem exec_tIdleEdge (w d : Bool) (s : State) :
    exec (.tIdleEdge w d) s = transition s fun _ r => .ok { r.sample true with dcnt := 0, state := .confirming } :=
  rfl

/-- The registers after `T_CONF_WAIT`, or its fault (R75). -/
theorem exec_tConfWait (b p w : Bool) (s : State) :
    exec (.tConfWait b p w) s = transition s fun b r =>
      match checkDeb b r with
      | .ok _ => .ok { r with dcnt := r.dcnt + 1 }
      | .error f => .error f := rfl

theorem exec_tConfPass (p w : Bool) (s : State) :
    exec (.tConfPass p w) s = transition s fun b r =>
      match checkDeb b r with
      | .ok _ => .ok { r with dcnt := 0, state := .advanceEarly }
      | .error f => .error f := rfl

theorem exec_tConfNoise (p w : Bool) (s : State) :
    exec (.tConfNoise p w) s = transition s fun b r =>
      match checkCounters b r with
      | .ok _ => endIter b w { r with dcnt := 0 }
      | .error f => .error f := rfl

theorem exec_tAdvEarly (b p w d : Bool) (s : State) :
    exec (.tAdvEarly b p w d) s = transition s fun b r =>
      match endIter b w r with
      | .ok r' =>
        match inc10 r.digit with
        | .ok n => .ok { r' with digit := n }
        | .error f => .error f
      | .error f => .error f := rfl

theorem exec_tAdvPeriod (b p w d : Bool) (s : State) :
    exec (.tAdvPeriod b p w d) s = transition s fun _ r =>
      match inc10 r.digit with
      | .ok n => .ok { r with digit := n, wcnt := 0, state := .idle }
      | .error f => .error f := rfl

theorem exec_render (s : State) : exec .render s = withDrive s fun v => .next (s.setSegN v) := rfl

theorem exec_portMerge (s : State) :
    exec .portMerge s =
      withDrive s fun v => .next (s.setPortOut (mergePort s.build.portW v s.otherNow)) := rfl

/-- Every transition but `RESET` has the shared form. -/
theorem exec_selectRow (s : Fsm) (b p w d : Bool) :
    ∃ f, ∀ st, exec (selectRow false s b p w d) st = transition st f := by
  cases s
  · cases b
    · exact ⟨_, exec_tIdleLow p w d⟩
    · cases p
      · exact ⟨_, exec_tIdleEdge w d⟩
      · exact ⟨_, exec_tIdleHeld w d⟩
  · cases d
    · exact ⟨_, exec_tConfWait b p w⟩
    · cases b
      · exact ⟨_, exec_tConfNoise p w⟩
      · exact ⟨_, exec_tConfPass p w⟩
  · exact ⟨_, exec_tAdvEarly b p w d⟩
  · exact ⟨_, exec_tAdvPeriod b p w d⟩

/-- The forms of a row: what an operation can be, said once. -/
inductive ExecForm : Instr → Prop where
  | reset (c : Fsm) (b p w d : Bool) : ExecForm (.reset c b p w d)
  | transition {i : Instr} (f : Build → Regs → Except Fault Regs) (c : CondWord) (hc : encode i = some (.condWord c))
      (h : ∀ s, exec i s = transition s f) : ExecForm i
  | lookup (d : Digit) : ExecForm (decodeRom d)
  | render : ExecForm .render
  | portMerge : ExecForm .portMerge

theorem execForm (i : Instr) : ExecForm i := by
  cases i with
  | reset c b p w d => exact .reset c b p w d
  | tIdleLow p w d => exact .transition _ _ rfl (exec_tIdleLow p w d)
  | tIdleHeld w d => exact .transition _ _ rfl (exec_tIdleHeld w d)
  | tIdleEdge w d => exact .transition _ _ rfl (exec_tIdleEdge w d)
  | tConfWait b p w => exact .transition _ _ rfl (exec_tConfWait b p w)
  | tConfPass p w => exact .transition _ _ rfl (exec_tConfPass p w)
  | tConfNoise p w => exact .transition _ _ rfl (exec_tConfNoise p w)
  | tAdvEarly b p w d => exact .transition _ _ rfl (exec_tAdvEarly b p w d)
  | tAdvPeriod b p w d => exact .transition _ _ rfl (exec_tAdvPeriod b p w d)
  | seg0 => exact .lookup 0x0#4
  | seg1 => exact .lookup 0x1#4
  | seg2 => exact .lookup 0x2#4
  | seg3 => exact .lookup 0x3#4
  | seg4 => exact .lookup 0x4#4
  | seg5 => exact .lookup 0x5#4
  | seg6 => exact .lookup 0x6#4
  | seg7 => exact .lookup 0x7#4
  | seg8 => exact .lookup 0x8#4
  | seg9 => exact .lookup 0x9#4
  | romOodA => exact .lookup 0xA#4
  | romOodB => exact .lookup 0xB#4
  | romOodC => exact .lookup 0xC#4
  | romOodD => exact .lookup 0xD#4
  | romOodE => exact .lookup 0xE#4
  | romOodF => exact .lookup 0xF#4
  | render => exact .render
  | portMerge => exact .portMerge

end Sys2Proof.Machine
end

