-- ==== Sys2Proof/Laws/Loop.lean ====
section
/-! SUPPORT. The source's loop, case by case, and that it keeps the registers in range. -/

namespace Sys2Proof.Machine

theorem loopStep_edge {b : Build} {r : Regs} (hs : r.state = .idle) (hp : r.prev = false) :
    loopStep b true r = { r with prev := true, dcnt := 0, state := .confirming } := by
  simp [loopStep, hs, hp]

theorem loopStep_low {b : Build} {r : Regs} (hs : r.state = .idle) :
    loopStep b false r = closeIteration b { r with prev := false } := by
  simp [loopStep, hs]

theorem loopStep_held {b : Build} {r : Regs} (hs : r.state = .idle) (hp : r.prev = true) :
    loopStep b true r = closeIteration b { r with prev := true } := by
  simp [loopStep, hs, hp]

theorem loopStep_wait {b : Build} {r : Regs} (btn : Bool) (hs : r.state = .confirming) (hd : r.dcnt + 1 < b.nDeb) :
    loopStep b btn r = { r with dcnt := r.dcnt + 1 } := by
  simp [loopStep, hs, hd]

theorem loopStep_pass {b : Build} {r : Regs} (hs : r.state = .confirming) (hd : ¬ r.dcnt + 1 < b.nDeb) :
    loopStep b true r = { r with dcnt := 0, state := .advanceEarly } := by
  simp [loopStep, hs, hd]

theorem loopStep_noise {b : Build} {r : Regs} (hs : r.state = .confirming) (hd : ¬ r.dcnt + 1 < b.nDeb) :
    loopStep b false r = closeIteration b { r with dcnt := 0 } := by
  simp [loopStep, hs, hd]

theorem loopStep_early {b : Build} {r : Regs} (btn : Bool) (hs : r.state = .advanceEarly) :
    loopStep b btn r = closeIteration b { r with digit := bump r.digit } := by
  simp [loopStep, hs]

theorem loopStep_period {b : Build} {r : Regs} (btn : Bool) (hs : r.state = .advancePeriod) :
    loopStep b btn r = { r with digit := bump r.digit, wcnt := 0, state := .idle } := by
  simp [loopStep, hs]

theorem closeIteration_of_lt {b : Build} {r : Regs} (h : r.wcnt + 1 < b.nWait) :
    closeIteration b r = { r with wcnt := r.wcnt + 1, state := .idle } := by
  simp [closeIteration, h]

theorem closeIteration_of_last {b : Build} {r : Regs} (h : ¬ r.wcnt + 1 < b.nWait) :
    closeIteration b r = { r with state := .advancePeriod } := by
  simp [closeIteration, h]

/-- The end of an iteration as the machine computes it is the end of an iteration as R70 reads (R46, R70). -/
theorem countIter_eq_closeIteration {b : Build} {r : Regs} (hb : 1 ≤ b.nWait) (h : r.wcnt ≤ b.nWait - 1) :
    countIter (r.wcnt == b.nWait - 1) r = closeIteration b r := by
  by_cases e : r.wcnt = b.nWait - 1
  · rw [closeIteration_of_last (by omega), beq_iff_eq.mpr e]; rfl
  · rw [closeIteration_of_lt (by omega), beq_false_of_ne e]; rfl

theorem bump_le (d : Digit) : (bump d).toNat ≤ 9 := by
  rw [bump, BitVec.toNat_ofNat]; omega

theorem closeIteration_inRange {b : Build} {r : Regs} (hd : r.digit.toNat ≤ 9) (hw : r.wcnt ≤ b.nWait - 1)
    (hz : r.dcnt = 0) : (closeIteration b r).InRange b := by
  by_cases h : r.wcnt + 1 < b.nWait
  · rw [closeIteration_of_lt h]
    exact ⟨hd, by simp only; omega, by simp only; omega, fun _ => hz⟩
  · rw [closeIteration_of_last h]
    exact ⟨hd, hw, by simp only; omega, fun _ => hz⟩

/-- The loop keeps the registers in range (R29). -/
theorem loopStep_inRange {b : Build} {r : Regs} (btn : Bool) (hi : r.InRange b) : (loopStep b btn r).InRange b := by
  obtain ⟨h1, h2, h3, h4⟩ := hi
  cases hs : r.state with
  | idle =>
    have hz := h4 (by simp [hs])
    cases btn
    · rw [loopStep_low hs]; exact closeIteration_inRange h1 h2 hz
    · cases hp : r.prev
      · rw [loopStep_edge hs hp]; exact ⟨h1, h2, by simp, by simp⟩
      · rw [loopStep_held hs hp]; exact closeIteration_inRange h1 h2 hz
  | confirming =>
    by_cases hd : r.dcnt + 1 < b.nDeb
    · rw [loopStep_wait btn hs hd]; exact ⟨h1, h2, by simp only; omega, fun h => absurd hs h⟩
    · cases btn
      · rw [loopStep_noise hs hd]; exact closeIteration_inRange h1 h2 rfl
      · rw [loopStep_pass hs hd]; exact ⟨h1, h2, by simp, by simp⟩
  | advanceEarly =>
    rw [loopStep_early btn hs]; exact closeIteration_inRange (bump_le _) h2 (h4 (by simp [hs]))
  | advancePeriod =>
    rw [loopStep_period btn hs]; exact ⟨bump_le _, by simp, h3, fun _ => h4 (by simp [hs])⟩

end Sys2Proof.Machine
end

