-- ==== Sys2Proof/Laws/PerInstr.lean ====
section
/-! SUPPORT. Statements about every operation, one lemma per constructor. -/

/-- The word of an operation lies in the row of the operation map that bears its name: `(word & mask) == match`
(spec 30_encoding.md R47, R48). -/
def Sys2Proof.Laws.EncodingSelectsRow.Statement (i : Sys2Proof.Instr) : Prop :=
  ∀ e, Sys2Proof.encode i = some e →
    ∃ r, i.row = some r ∧ r.mnemonic = i.mnemonic ∧ r.selects e.format e.toNat = true

namespace Sys2Proof.Laws.EncodingSelectsRow

theorem reset (s : Fsm) (b p w d : Bool) : Statement (.reset s b p w d) := by
  rintro e ⟨⟩
  refine ⟨_, rfl, rfl, ?_⟩
  revert b p w d; cases s <;> decide

theorem tIdleLow (p w d : Bool) : Statement (.tIdleLow p w d) := by
  rintro e ⟨⟩
  refine ⟨_, rfl, rfl, ?_⟩
  revert p w d; decide

theorem tIdleHeld (w d : Bool) : Statement (.tIdleHeld w d) := by
  rintro e ⟨⟩
  refine ⟨_, rfl, rfl, ?_⟩
  revert w d; decide

theorem tIdleEdge (w d : Bool) : Statement (.tIdleEdge w d) := by
  rintro e ⟨⟩
  refine ⟨_, rfl, rfl, ?_⟩
  revert w d; decide

theorem tConfWait (b p w : Bool) : Statement (.tConfWait b p w) := by
  rintro e ⟨⟩
  refine ⟨_, rfl, rfl, ?_⟩
  revert b p w; decide

theorem tConfPass (p w : Bool) : Statement (.tConfPass p w) := by
  rintro e ⟨⟩
  refine ⟨_, rfl, rfl, ?_⟩
  revert p w; decide

theorem tConfNoise (p w : Bool) : Statement (.tConfNoise p w) := by
  rintro e ⟨⟩
  refine ⟨_, rfl, rfl, ?_⟩
  revert p w; decide

theorem tAdvEarly (b p w d : Bool) : Statement (.tAdvEarly b p w d) := by
  rintro e ⟨⟩
  refine ⟨_, rfl, rfl, ?_⟩
  revert b p w d; decide

theorem tAdvPeriod (b p w d : Bool) : Statement (.tAdvPeriod b p w d) := by
  rintro e ⟨⟩
  refine ⟨_, rfl, rfl, ?_⟩
  revert b p w d; decide

theorem seg0 : Statement .seg0 := by
  rintro e ⟨⟩
  exact ⟨_, rfl, rfl, by decide⟩

theorem seg1 : Statement .seg1 := by
  rintro e ⟨⟩
  exact ⟨_, rfl, rfl, by decide⟩

theorem seg2 : Statement .seg2 := by
  rintro e ⟨⟩
  exact ⟨_, rfl, rfl, by decide⟩

theorem seg3 : Statement .seg3 := by
  rintro e ⟨⟩
  exact ⟨_, rfl, rfl, by decide⟩

theorem seg4 : Statement .seg4 := by
  rintro e ⟨⟩
  exact ⟨_, rfl, rfl, by decide⟩

theorem seg5 : Statement .seg5 := by
  rintro e ⟨⟩
  exact ⟨_, rfl, rfl, by decide⟩

theorem seg6 : Statement .seg6 := by
  rintro e ⟨⟩
  exact ⟨_, rfl, rfl, by decide⟩

theorem seg7 : Statement .seg7 := by
  rintro e ⟨⟩
  exact ⟨_, rfl, rfl, by decide⟩

theorem seg8 : Statement .seg8 := by
  rintro e ⟨⟩
  exact ⟨_, rfl, rfl, by decide⟩

theorem seg9 : Statement .seg9 := by
  rintro e ⟨⟩
  exact ⟨_, rfl, rfl, by decide⟩

theorem romOodA : Statement .romOodA := by
  rintro e ⟨⟩
  exact ⟨_, rfl, rfl, by decide⟩

theorem romOodB : Statement .romOodB := by
  rintro e ⟨⟩
  exact ⟨_, rfl, rfl, by decide⟩

theorem romOodC : Statement .romOodC := by
  rintro e ⟨⟩
  exact ⟨_, rfl, rfl, by decide⟩

theorem romOodD : Statement .romOodD := by
  rintro e ⟨⟩
  exact ⟨_, rfl, rfl, by decide⟩

theorem romOodE : Statement .romOodE := by
  rintro e ⟨⟩
  exact ⟨_, rfl, rfl, by decide⟩

theorem romOodF : Statement .romOodF := by
  rintro e ⟨⟩
  exact ⟨_, rfl, rfl, by decide⟩

theorem render : Statement .render := by
  rintro e ⟨⟩

theorem portMerge : Statement .portMerge := by
  rintro e ⟨⟩

end Sys2Proof.Laws.EncodingSelectsRow
end

