-- ==== Sys2Proof/Laws/Step.lean ====
section
/-! SUPPORT. What a clock cycle can do: the row it selects, how the outputs settle, and the inversion of a step. -/

namespace Sys2Proof.Machine

/-- Decoding a condition word built from its fields selects by those fields (R45, R47). -/
theorem decodeCond_packCond (r : Bool) (s : Fsm) (b p w d : Bool) :
    decodeCond (packCond r s b p w d) = selectRow r s b p w d := by
  revert r b p w d; cases s <;> decide

/-- The decoder goes on exactly on `rst` = 1 or with both counters in range (R46, R95). -/
theorem buildCond_eq_ok {b : Build} {r : Regs} {i : Stim} {c : CondWord} :
    buildCond b r i = .ok c ↔
      (i.rst = true ∨ (r.wcnt ≤ b.nWait - 1 ∧ r.dcnt ≤ b.nDeb - 1)) ∧ c = condWord b r i := by
  unfold buildCond
  cases hr : i.rst
  · cases hc : checkCounters b r with
    | ok u => simp [checkCounters_eq_ok.mp hc, eq_comm]
    | error f =>
      have : ¬(r.wcnt ≤ b.nWait - 1 ∧ r.dcnt ≤ b.nDeb - 1) := fun h => by
        rw [checkCounters_of_le h.1 h.2] at hc; cases hc
      simp [this]
  · simp [eq_comm]

/-- The row of a cycle after the first reset (R68). -/
theorem fetch_of_some {s : State} {r : Regs} (hb : s.build.wf = true) (hr : s.regs = some r)
    (h : s.stimNow.rst = true ∨ (r.wcnt ≤ s.build.nWait - 1 ∧ r.dcnt ≤ s.build.nDeb - 1)) :
    fetch s = .next (selectRow s.stimNow.rst r.state s.stimNow.btn r.prev (wlast s.build r) (dlast s.build r)) := by
  simp only [fetch, onBuild_of_wf hb, hr, buildCond_eq_ok.mpr ⟨h, rfl⟩]
  simp only [condWord, decodeCond_packCond]

/-- With `rst` = 0 a fault of the counter check is the fault of the cycle (R46). -/
theorem fetch_of_error {s : State} {r : Regs} {f : Fault} (hb : s.build.wf = true) (hr : s.regs = some r)
    (hi : s.stimNow.rst = false) (h : checkCounters s.build r = .error f) : fetch s = .fault f := by
  simp [fetch, onBuild_of_wf hb, hr, buildCond, hi, h]

/-- Before the first reset only `RESET` can be selected (R27, R106). -/
theorem fetch_of_none_rst {s : State} (hb : s.build.wf = true) (hr : s.regs = none) (hi : s.stimNow.rst = true) :
    fetch s = .next (.reset .idle false false false false) := by
  simp only [fetch, onBuild_of_wf hb, hr, hi, if_true]
  rfl

theorem fetch_of_none_noRst {s : State} (hb : s.build.wf = true) (hr : s.regs = none)
    (hi : s.stimNow.rst = false) : fetch s = .fault (.uninit .state) := by
  simp [fetch, onBuild_of_wf hb, hr, hi]

theorem fetch_of_not_wf {s : State} (hb : s.build.wf = false) : fetch s = .refused .illegalBuild := by
  simp [fetch, onBuild_of_not_wf hb]

/-- All that building and decoding the condition word can do when it goes on. -/
theorem fetch_eq_next {s : State} {i : Instr} :
    fetch s = .next i ↔ s.build.wf = true ∧
      ((s.regs = none ∧ s.stimNow.rst = true ∧ i = .reset .idle false false false false) ∨
        ∃ r, s.regs = some r ∧
          (s.stimNow.rst = true ∨ (r.wcnt ≤ s.build.nWait - 1 ∧ r.dcnt ≤ s.build.nDeb - 1)) ∧
          i = selectRow s.stimNow.rst r.state s.stimNow.btn r.prev (wlast s.build r) (dlast s.build r)) := by
  cases hb : s.build.wf
  · simp [fetch_of_not_wf hb]
  · cases hr : s.regs with
    | none =>
      cases hi : s.stimNow.rst
      · simp [fetch_of_none_noRst hb hr hi]
      · simp [fetch_of_none_rst hb hr hi, eq_comm]
    | some r =>
      by_cases h : s.stimNow.rst = true ∨ (r.wcnt ≤ s.build.nWait - 1 ∧ r.dcnt ≤ s.build.nDeb - 1)
      · rw [fetch_of_some hb hr h]
        constructor
        · intro e
          exact ⟨rfl, .inr ⟨r, rfl, h, (Host.Outcome.next.inj e).symm⟩⟩
        · rintro ⟨-, ⟨e, -⟩ | ⟨r', e, -, rfl⟩⟩
          · cases e
          · cases e; rfl
      · obtain ⟨h1, h2⟩ := not_or.mp h
        rcases checkCounters_of_out (b := s.build) (r := r) (by omega) with e | e <;>
          simp [fetch_of_error hb hr (by simpa using h1) e, h]

/-- The outputs that belong to a lit pattern (R52, R86, R89). -/
def State.display (s : State) (p : Pattern) : State :=
  ((s.setSeg p).setSegN (driveValue p)).setPortOut (mergePort s.build.portW (driveValue p) s.otherNow)

@[simp] theorem State.display_build (s : State) (p : Pattern) : (s.display p).build = s.build := rfl
@[simp] theorem State.display_regs (s : State) (p : Pattern) : (s.display p).regs = s.regs := rfl
@[simp] theorem State.display_seg (s : State) (p : Pattern) : (s.display p).seg = some p := rfl
@[simp] theorem State.display_segN (s : State) (p : Pattern) : (s.display p).segN = some (driveValue p) := rfl
@[simp] theorem State.display_portOut (s : State) (p : Pattern) :
    (s.display p).portOut = some (mergePort s.build.portW (driveValue p) s.otherNow) := rfl
@[simp] theorem State.display_stim (s : State) (p : Pattern) : (s.display p).stim = s.stim := rfl
@[simp] theorem State.display_others (s : State) (p : Pattern) : (s.display p).others = s.others := rfl
@[simp] theorem State.display_cycle (s : State) (p : Pattern) : (s.display p).cycle = s.cycle := rfl
@[simp] theorem State.display_otherNow (s : State) (p : Pattern) : (s.display p).otherNow = s.otherNow := rfl

/-- The outputs settle on the pattern of the digit (R87). -/
theorem settle_of_some {s : State} {r : Regs} {p : Pattern} (hb : s.build.wf = true) (hr : s.regs = some r)
    (hp : romLookup r.digit = some p) : settle s = .next (s.display p) := by
  have h1 : exec (decodeRom r.digit) s = .next (s.setSeg p) := by
    rw [exec_decodeRom]; exact romRow_eq_next.mpr ⟨hb, p, hp, rfl⟩
  have h2 : exec .render (s.setSeg p) = .next ((s.setSeg p).setSegN (driveValue p)) :=
    (withDrive_of_le (s := s.setSeg p) hb hr hp fun v => .next ((s.setSeg p).setSegN v) :)
  have h3 : exec .portMerge ((s.setSeg p).setSegN (driveValue p)) = .next (s.display p) :=
    (withDrive_of_le (s := (s.setSeg p).setSegN (driveValue p)) hb hr hp fun v =>
      .next (((s.setSeg p).setSegN (driveValue p)).setPortOut (mergePort s.build.portW v s.otherNow)) :)
  simp only [settle, withRegs_of_some hr, h1, h2, h3, andThen_next]

/-- A digit out of domain faults when the outputs settle (R95). -/
theorem settle_of_ge {s : State} {r : Regs} (hb : s.build.wf = true) (hr : s.regs = some r) (hd : 10 ≤ r.digit.toNat) :
    settle s = .fault (.romDomain r.digit) := by
  simp only [settle, withRegs_of_some hr, exec_decodeRom, romRow_of_ge hb hd, andThen_fault]

/-- All that settling can do when it goes on. -/
theorem settle_eq_next {s t : State} (hb : s.build.wf = true) :
    settle s = .next t ↔ ∃ r p, s.regs = some r ∧ romLookup r.digit = some p ∧ t = s.display p := by
  constructor
  · intro h
    obtain ⟨r, hr, -⟩ := withRegs_eq_next.mp h
    cases hp : romLookup r.digit with
    | none => rw [settle_of_ge hb hr (romLookup_eq_none.mp hp)] at h; cases h
    | some p => rw [settle_of_some hb hr hp] at h; exact ⟨r, p, hr, hp, by simpa using h.symm⟩
  · rintro ⟨r, p, hr, hp, rfl⟩
    exact settle_of_some hb hr hp

/-- A step in the terms of its halves. -/
theorem step_eq_next {s t : State} :
    step s = .next t ↔ ∃ i u, fetch s = .next i ∧ exec i s = .next u ∧ settle u.nextCycle = .next t := by
  simp only [step, andThen_eq_next]
  constructor
  · rintro ⟨i, hi, u, hu, ht⟩
    exact ⟨i, u, hi, hu, ht⟩
  · rintro ⟨i, u, hi, hu, ht⟩
    exact ⟨i, hi, u, hu, ht⟩

/-- A step whose row leaves the registers `r'` goes on to the state that shows the digit of `r'`. -/
theorem step_of_exec {s : State} {i : Instr} {r' : Regs} {p : Pattern} (hb : s.build.wf = true)
    (hi : fetch s = .next i) (hx : exec i s = .next (s.setRegs r')) (hp : romLookup r'.digit = some p) :
    step s = .next ((s.setRegs r').nextCycle.display p) := by
  refine step_eq_next.mpr ⟨i, _, hi, hx, ?_⟩
  exact settle_of_some (s := (s.setRegs r').nextCycle) (by simpa using hb) rfl hp

/-- `k + 1` cycles are one cycle and then `k`. -/
theorem run_succ (k : Nat) (s : State) : run (k + 1) s = andThen (step s) (run k) := by
  simp only [run, Host.Core.run]
  cases h : step s with
  | next t => simp only [Sys2Proof.core, h, andThen_next]; rfl
  | fault f => simp only [Sys2Proof.core, h, andThen_fault]
  | refused e => simp only [Sys2Proof.core, h, andThen_refused]

@[simp] theorem run_zero (s : State) : run 0 s = .next s := rfl

theorem run_succ_of_step {k : Nat} {s t : State} (h : step s = .next t) : run (k + 1) s = run k t := by
  rw [run_succ, h, andThen_next]

end Sys2Proof.Machine
end

