-- ==== Sys2Proof/Tests/Slice0.lean ====
section
/-! SUPPORT. Tests of the model: ill-formed terms, words written out from spec/30_encoding.md, the vectors of
spec/95_test_vectors.md, and for every statement with hypotheses a case that meets them. -/

namespace Sys2Proof.Tests

open Sys2Proof Sys2Proof.Machine

/-! ## Helpers -/

/-- A block with `N_WAIT` = `n`, `N_DEB` = `m` and a port of 8 bits, in the state `st d p w c` of 95_test_vectors.md
1.1, with the inputs `xs` from now on. -/
def blk (n m : Nat) (st : Fsm) (d : Digit) (p : Bool) (w c : Nat) (xs : List Stim) : State :=
  { State.powerOn ⟨n, m, 10, 10, 8⟩ with regs := some ⟨d, p, st, w, c⟩, stim := xs }

/-- The block before the first reset. -/
def uninit (xs : List Stim) : State := { State.powerOn ⟨4, 2, 10, 10, 8⟩ with stim := xs }

/-- A block of N_WAIT = 4, N_DEB = 2 whose port has `n` bits, showing digit `d` with `other` = `o`. -/
def port (n : Nat) (d : Digit) (o : Nat) : State :=
  { State.powerOn ⟨4, 2, 10, 10, n⟩ with regs := some ⟨d, false, .idle, 0, 0⟩, others := [o] }

/-- One row of the table of 95_test_vectors.md 2.3: the condition word of the state and its first input, the
transition it selects, and the registers after one step. -/
abbrev Vector (s : State) (r : Regs) (c : CondWord) (i : Instr) (after : Regs) : Prop :=
  s.regs = some r ∧ condWord s.build r s.stimNow = c ∧ nextOf (fetch s) = some i ∧ regsOf (step s) = some after

/-- The premises that the statements about sequences share: a legal build, the registers, and their ranges. -/
abbrev Ready (s : State) (r : Regs) : Prop := s.build.wf = true ∧ s.regs = some r ∧ r.InRange s.build

theorem next_of_regs {o : Out} {r : Regs} (h : regsOf o = some r) : ∃ t, o = .next t ∧ t.regs = some r := by
  cases o with
  | next t => exact ⟨t, rfl, h⟩
  | fault f => cases h
  | refused e => cases h

theorem next_of_isSome {σ : Type} {o : Host.Outcome σ Fault Refusal} (h : (nextOf o).isSome = true) :
    ∃ t, o = .next t := by
  cases o with
  | next t => exact ⟨t, rfl⟩
  | fault f => cases h
  | refused e => cases h

/-! ## Well-formedness: an ill-formed term for each check (R7, R43, R51, R105) -/

theorem test_wf_legal : (Build.mk 1 1 1 1 7).wf = true ∧ (Build.mk 4 2 2 1 8).wf = true := by decide

theorem test_wf_nWait : (Build.mk 0 1 1 1 7).nWaitOk = false ∧ (Build.mk 0 1 1 1 7).wf = false := by decide

theorem test_wf_nDeb : (Build.mk 1 0 1 1 7).nDebOk = false ∧ (Build.mk 1 0 1 1 7).wf = false := by decide

theorem test_wf_wWait : (Build.mk 5 1 2 1 7).wWaitOk = false ∧ (Build.mk 1 1 0 1 7).wWaitOk = false ∧
    (Build.mk 5 1 2 1 7).wf = false := by decide

theorem test_wf_wDeb : (Build.mk 1 3 1 1 7).wDebOk = false ∧ (Build.mk 1 1 1 0 7).wDebOk = false ∧
    (Build.mk 1 3 1 1 7).wf = false := by decide

theorem test_wf_portW : (Build.mk 1 1 1 1 6).portWOk = false ∧ (Build.mk 1 1 1 1 6).wf = false := by decide

theorem test_wf_hasWord : Instr.render.hasWord = false ∧ Instr.portMerge.hasWord = false ∧
    Instr.romOodF.hasWord = true := by decide

theorem test_wf_program : (StimProgram.mk 0 1 []).wf = false ∧ (StimProgram.mk 1 0 []).wf = false ∧
    (StimProgram.mk 1 1 [.boot]).wf = true := by decide

/-! ## Decoding: words written out bit by bit from R45, R47, R48 and 95_test_vectors.md 2.3 and 2.5 -/

theorem test_decode_reset : decodeCond 0b1000000#7 = .reset .idle false false false false ∧
    decodeCond 0b1011101#7 = .reset .confirming true true false true := by decide

theorem test_decode_idle : decodeCond 0b0000100#7 = .tIdleLow true false false ∧
    decodeCond 0b0001110#7 = .tIdleHeld true false ∧ decodeCond 0b0001000#7 = .tIdleEdge false false ∧
    decodeCond 0b0001001#7 = .tIdleEdge false true := by decide

theorem test_decode_confirming : decodeCond 0b0010100#7 = .tConfWait false true false ∧
    decodeCond 0b0011101#7 = .tConfPass true false ∧ decodeCond 0b0010101#7 = .tConfNoise true false := by decide

theorem test_decode_advance : decodeCond 0b0101110#7 = .tAdvEarly true true true false ∧
    decodeCond 0b0111010#7 = .tAdvPeriod true false true false := by decide

theorem test_decode_rom : [0b0000#4, 0b0001#4, 0b0010#4, 0b0011#4, 0b0100#4, 0b0101#4, 0b0110#4, 0b0111#4].map
      decodeRom = [.seg0, .seg1, .seg2, .seg3, .seg4, .seg5, .seg6, .seg7] ∧
    [0b1000#4, 0b1001#4, 0b1010#4, 0b1011#4, 0b1100#4, 0b1101#4, 0b1110#4, 0b1111#4].map decodeRom =
      [.seg8, .seg9, .romOodA, .romOodB, .romOodC, .romOodD, .romOodE, .romOodF] := by decide

theorem test_encode : encode (.tConfPass false true) = some (.condWord 0b0011011#7) ∧
    encode (.reset .advancePeriod true true true true) = some (.condWord 0b1111111#7) ∧
    encode .seg6 = some (.romAddr 0b0110#4) ∧ encode .render = none ∧ encode .portMerge = none := by decide

/-- The bytes where the clauses of `RawBytesAreRejectedByName` meet (R43, R44, R45). -/
theorem test_raw_bytes : decodeByte .romAddr 15#8 = .ok .romOodF ∧
    decodeByte .romAddr 16#8 = .error .romAddrTooWide ∧
    decodeByte .condWord 127#8 = .ok (.reset .advancePeriod true true true true) ∧
    decodeByte .condWord 128#8 = .error .condWordTooWide := ⟨rfl, rfl, rfl, rfl⟩

/-- No two rows of one map have a word in common (R47, R48). -/
theorem test_rows_disjoint :
    (condRows.Pairwise fun a b => a.mask &&& b.mask &&& (a.value ^^^ b.value) ≠ 0) ∧
    (romRows.Pairwise fun a b => a.mask &&& b.mask &&& (a.value ^^^ b.value) ≠ 0) := by decide

/-- The table's words of the host's numbering, and the three condition words that a whole byte cannot tell from a
ROM address (log entry 9). -/
theorem test_table_words : decodeTableWord 8 0x40 = some (.reset .idle false false false false) ∧
    decodeTableWord 8 0x19 = some (.tConfPass false false) ∧ decodeTableWord 8 0x0D = some .romOodD ∧
    decodeTableWord 7 0x0C = some (.tIdleHeld false false) ∧
    decodeTableWord 7 0x00 = some (.tIdleLow false false false) ∧
    decodeTableWord 4 0x0C = some .romOodC ∧ decodeTableWord 4 16 = none ∧ decodeTableWord 8 128 = none := by decide

/-! ## The ROM and the drive value (95_test_vectors.md 2.1, 2.2) -/

theorem test_rom : ((List.range 10).map fun d => romLookup (BitVec.ofNat 4 d)) =
      [some 0x3F#7, some 0x06#7, some 0x5B#7, some 0x4F#7, some 0x66#7, some 0x6D#7, some 0x7D#7, some 0x07#7,
       some 0x7F#7, some 0x6F#7] ∧
    ((List.range 6).map fun d => romLookup (BitVec.ofNat 4 (d + 10))) = List.replicate 6 none := by decide

theorem test_drive : ((List.range 10).map fun d => (romLookup (BitVec.ofNat 4 d)).map driveValue) =
    [some 0x40#7, some 0x79#7, some 0x24#7, some 0x30#7, some 0x19#7, some 0x12#7, some 0x02#7, some 0x78#7,
     some 0x00#7, some 0x10#7] := by decide

theorem test_seg_row : (nextOf (exec .seg1 (uninit []))).bind State.seg = some 0b0000110#7 ∧
    (nextOf (exec .seg9 (uninit []))).bind State.seg = some 0b1101111#7 := by decide

/-- Vector F4, and the last address. -/
theorem test_rom_ood : faultOf (exec .romOodA (uninit [])) = some (.romDomain 10#4) ∧
    faultOf (exec .romOodF (uninit [])) = some (.romDomain 15#4) := by decide

/-- 95_test_vectors.md 2.2 and vector F5. -/
theorem test_inc10 : inc10 0#4 = .ok 1#4 ∧ inc10 7#4 = .ok 8#4 ∧ inc10 9#4 = .ok 0#4 ∧
    inc10 10#4 = .error (.digitDomain 10#4) ∧ inc10 12#4 = .error (.digitDomain 12#4) := ⟨rfl, rfl, rfl, rfl, rfl⟩

/-! ## The transitions (95_test_vectors.md 2.3) -/

/-- T1 and T2. -/
theorem test_tIdleLow :
    Vector (blk 4 2 .idle 5 true 2 0 [stimB0]) ⟨5, true, .idle, 2, 0⟩ 0x04 (.tIdleLow true false false)
      ⟨5, false, .idle, 3, 0⟩ ∧
    Vector (blk 4 2 .idle 5 false 3 0 [stimB0]) ⟨5, false, .idle, 3, 0⟩ 0x02 (.tIdleLow false true false)
      ⟨5, false, .advancePeriod, 3, 0⟩ := by decide

/-- T3 and T4. -/
theorem test_tIdleHeld :
    Vector (blk 4 2 .idle 5 true 0 0 [stimB1]) ⟨5, true, .idle, 0, 0⟩ 0x0C (.tIdleHeld false false)
      ⟨5, true, .idle, 1, 0⟩ ∧
    Vector (blk 4 2 .idle 5 true 3 0 [stimB1]) ⟨5, true, .idle, 3, 0⟩ 0x0E (.tIdleHeld true false)
      ⟨5, true, .advancePeriod, 3, 0⟩ := by decide

/-- T5 and T6. -/
theorem test_tIdleEdge :
    Vector (blk 4 2 .idle 5 false 1 0 [stimB1]) ⟨5, false, .idle, 1, 0⟩ 0x08 (.tIdleEdge false false)
      ⟨5, true, .confirming, 1, 0⟩ ∧
    Vector (blk 4 2 .idle 5 false 3 0 [stimB1]) ⟨5, false, .idle, 3, 0⟩ 0x0A (.tIdleEdge true false)
      ⟨5, true, .confirming, 3, 0⟩ := by decide

/-- T7 and T8. -/
theorem test_tConfWait :
    Vector (blk 4 3 .confirming 5 true 1 0 [stimB0]) ⟨5, true, .confirming, 1, 0⟩ 0x14 (.tConfWait false true false)
      ⟨5, true, .confirming, 1, 1⟩ ∧
    Vector (blk 4 3 .confirming 5 true 1 1 [stimB1]) ⟨5, true, .confirming, 1, 1⟩ 0x1C (.tConfWait true true false)
      ⟨5, true, .confirming, 1, 2⟩ := by decide

/-- T9 and T10. -/
theorem test_tConfPass :
    Vector (blk 4 2 .confirming 5 true 1 1 [stimB1]) ⟨5, true, .confirming, 1, 1⟩ 0x1D (.tConfPass true false)
      ⟨5, true, .advanceEarly, 1, 0⟩ ∧
    Vector (blk 4 1 .confirming 5 true 3 0 [stimB1]) ⟨5, true, .confirming, 3, 0⟩ 0x1F (.tConfPass true true)
      ⟨5, true, .advanceEarly, 3, 0⟩ := by decide

/-- T11 and T12. -/
theorem test_tConfNoise :
    Vector (blk 4 2 .confirming 5 true 1 1 [stimB0]) ⟨5, true, .confirming, 1, 1⟩ 0x15 (.tConfNoise true false)
      ⟨5, true, .idle, 2, 0⟩ ∧
    Vector (blk 4 2 .confirming 5 true 3 1 [stimB0]) ⟨5, true, .confirming, 3, 1⟩ 0x17 (.tConfNoise true true)
      ⟨5, true, .advancePeriod, 3, 0⟩ := by decide

/-- T13 and T14. -/
theorem test_tAdvEarly :
    Vector (blk 4 2 .advanceEarly 5 true 1 0 [stimB0]) ⟨5, true, .advanceEarly, 1, 0⟩ 0x24
      (.tAdvEarly false true false false) ⟨6, true, .idle, 2, 0⟩ ∧
    Vector (blk 4 2 .advanceEarly 9 true 3 0 [stimB1]) ⟨9, true, .advanceEarly, 3, 0⟩ 0x2E
      (.tAdvEarly true true true false) ⟨0, true, .advancePeriod, 3, 0⟩ := by decide

/-- T15 and T16. -/
theorem test_tAdvPeriod :
    Vector (blk 4 2 .advancePeriod 5 false 3 0 [stimB1]) ⟨5, false, .advancePeriod, 3, 0⟩ 0x3A
      (.tAdvPeriod true false true false) ⟨6, false, .idle, 0, 0⟩ ∧
    Vector (blk 4 2 .advancePeriod 9 true 3 0 [stimB0]) ⟨9, true, .advancePeriod, 3, 0⟩ 0x36
      (.tAdvPeriod false true true false) ⟨0, true, .idle, 0, 0⟩ := by decide

/-- T17 and T18. -/
theorem test_reset :
    Vector (blk 4 2 .confirming 7 true 2 1 [stimRst1]) ⟨7, true, .confirming, 2, 1⟩ 0x5D
      (.reset .confirming true true false true) ⟨0, false, .idle, 0, 0⟩ ∧
    regsOf (step (uninit [stimRst])) = some ⟨0, false, .idle, 0, 0⟩ := by decide

/-- What is shown next: 95_test_vectors.md 2.6, from 9 and from 6; and after a reset. -/
theorem test_shown_next :
    (nextOf (step (blk 4 2 .advancePeriod 9 true 3 0 [stimB0]))).bind State.segN = some 0x40#7 ∧
    (nextOf (step (blk 4 2 .advancePeriod 6 true 3 0 [stimB0]))).bind State.segN = some 0x78#7 ∧
    (nextOf (step (uninit [stimRst]))).bind State.segN = some 0x40#7 := by decide

/-! ## The display (95_test_vectors.md 2.6) -/

/-- The drive column of M1 to M4, and M7. -/
theorem test_render : (nextOf (exec .render (port 8 0 0x80))).bind State.segN = some 0x40#7 ∧
    (nextOf (exec .render (port 8 8 0x00))).bind State.segN = some 0x00#7 ∧
    (nextOf (exec .render (port 8 1 0xFF))).bind State.segN = some 0x79#7 ∧
    (nextOf (exec .render (port 7 2 0))).bind State.segN = some 0x24#7 ∧
    faultOf (exec .render (port 8 12 0)) = some (.romDomain 12#4) := by decide

/-- M1 to M7. -/
theorem test_portMerge : (nextOf (exec .portMerge (port 8 0 0x80))).bind State.portOut = some 0xC0 ∧
    (nextOf (exec .portMerge (port 8 8 0x00))).bind State.portOut = some 0x00 ∧
    (nextOf (exec .portMerge (port 8 1 0xFF))).bind State.portOut = some 0xF9 ∧
    (nextOf (exec .portMerge (port 7 2 0))).bind State.portOut = some 0x24 ∧
    (nextOf (exec .portMerge (port 16 5 0xAB80))).bind State.portOut = some 0xAB92 ∧
    (nextOf (exec .portMerge (port 16 5 0xABFF))).bind State.portOut = some 0xAB92 ∧
    faultOf (exec .portMerge (port 8 12 0)) = some (.romDomain 12#4) := by decide

/-! ## Faults and refusals (95_test_vectors.md 2.7) -/

/-- F1 to F3. -/
theorem test_fault_uninit : faultOf (step (uninit [stimB0])) = some (.uninit .state) ∧
    faultOf (step (uninit [stimB1])) = some (.uninit .state) ∧
    faultOf (exec .render (uninit [])) = some (.uninit .digit) := by decide

/-- F6 to F9. -/
theorem test_fault_order :
    faultOf (step (blk 4 2 .idle 0 false 4 0 [stimB0])) = some (.counterRange .wcnt 4) ∧
    faultOf (step (blk 4 2 .advanceEarly 12 false 5 0 [stimB0])) = some (.counterRange .wcnt 5) ∧
    faultOf (step (blk 4 2 .advanceEarly 12 false 1 0 [stimB0])) = some (.digitDomain 12#4) ∧
    nextOf (fetch (blk 4 2 .idle 12 false 1 0 [stimB0])) = some (.tIdleLow false false false) ∧
    faultOf (step (blk 4 2 .idle 12 false 1 0 [stimB0])) = some (.romDomain 12#4) := by decide

/-- F10. -/
theorem test_fault_none_on_reset :
    regsOf (step (blk 4 2 .advanceEarly 12 false 5 0 [stimRst])) = some ⟨0, false, .idle, 0, 0⟩ := by decide

theorem test_fault_codes : (Fault.uninit .digit).code = 1 ∧ (Fault.counterRange .dcnt 3).code = 2 ∧
    (Fault.digitDomain 12#4).code = 3 ∧ (Fault.romDomain 12#4).code = 4 := by decide

/-- The decoder raises `COUNTER_RANGE` before any transition (R46, R95): before an edge and before the periodic advance,
for the counter that the row does not read, and before `DIGIT_DOMAIN`; a reset cycle raises none. -/
theorem test_fault_decoder :
    faultOf (step (blk 4 2 .idle 0 false 4 0 [stimB1])) = some (.counterRange .wcnt 4) ∧
    faultOf (step (blk 4 2 .advancePeriod 12 false 4 0 [stimB0])) = some (.counterRange .wcnt 4) ∧
    faultOf (step (blk 4 2 .advanceEarly 12 true 1 2 [stimB0])) = some (.counterRange .dcnt 2) ∧
    faultOf (step (blk 4 2 .confirming 0 true 4 0 [stimB0])) = some (.counterRange .wcnt 4) ∧
    regsOf (step (blk 4 2 .confirming 12 true 4 2 [stimRst1])) = some ⟨0, false, .idle, 0, 0⟩ := by decide

/-- A build with `N_WAIT` = 0, and one with `PORT_W` = 6 (R105). -/
theorem test_illegal_build : refusalOf (step (blk 0 2 .idle 0 false 0 0 [stimB0])) = some .illegalBuild ∧
    refusalOf (exec .portMerge (port 6 0 0)) = some .illegalBuild ∧
    refusalOf (exec .seg0 (port 6 0 0)) = some .illegalBuild := by decide

/-! ## Stimulus programs (R51) -/

/-- The encoding of program P2. -/
theorem test_program_words : encodeProgram ⟨4, 2, [.rst, .b0, .hold 4, .idle 4]⟩ =
    [0b10#2, 0b00#2, 0b01#2, 0b01#2, 0b01#2, 0b01#2, 0b00#2, 0b00#2, 0b00#2, 0b00#2] := by decide

/-- A program loaded before a block that has had no reset: its first statement runs in the next step. -/
theorem test_program_runs :
    regsOf (step ((uninit []).loadProgram ⟨1000, 20, [.boot, .idle 3]⟩)) = some ⟨0, false, .idle, 0, 0⟩ := by decide

/-! ## Cases that meet the hypotheses of the statements, by the statement's name -/

theorem witness_DecodeInvertsEncode : (Instr.reset .confirming true true false true).hasWord = true ∧
    (Instr.tAdvPeriod true true true true).hasWord = true ∧ Instr.romOodF.hasWord = true := by decide

theorem witness_RomDomain : romRead 1#4 = .ok 0x06#7 ∧ romRead 8#4 = .ok 0x7F#7 ∧ (9#4).toNat ≤ 9 ∧
    10 ≤ (10#4).toNat := ⟨rfl, rfl, by decide, by decide⟩

/-- For `SegRowsGiveThePatterns`, `RomOutOfDomainFaults`, `ResetRowCompletes` (a legal build before the first reset),
`RenderDrivesTheComplement`, `PortMergeComposesThePort` (digits 0 and 9, ports of 7 and 16 bits) and
`PortMergeFaultsWhenSegNDoes` (digit 10, and before the first reset). -/
theorem witness_Display : (uninit []).build.wf = true ∧
    ((port 7 9 0).build.wf = true ∧ (port 7 9 0).regs = some ⟨9, false, .idle, 0, 0⟩ ∧ (9#4).toNat ≤ 9) ∧
    ((port 16 0 0).build.wf = true ∧ (port 16 0 0).regs = some ⟨0, false, .idle, 0, 0⟩ ∧ (0#4).toNat ≤ 9) ∧
    ((port 8 10 0).build.wf = true ∧ (port 8 10 0).regs = some ⟨10, false, .idle, 0, 0⟩ ∧ 10 ≤ (10#4).toNat) := by
  decide

theorem witness_ResetCycle : (uninit [stimRst]).build.wf = true ∧ (uninit [stimRst]).stimNow.rst = true ∧
    (blk 4 2 .advanceEarly 12 true 5 0 [stimRst1]).stimNow.rst = true := by decide

theorem witness_HeldResetRepeats : (uninit [stimRst, stimRst1]).build.wf = true ∧ [stimRst, stimRst1] ≠ [] ∧
    (∀ x ∈ [stimRst, stimRst1], x.rst = true) ∧ (uninit [stimRst, stimRst1]).stim = [stimRst, stimRst1] ++ [] := by
  decide

/-- `wcnt` at `N_WAIT - 1` and at `N_WAIT`, `prev` 0 and 1. -/
theorem witness_IdleSamples : (blk 4 2 .idle 5 true 3 0 [stimB0]).build.wf = true ∧
    (blk 4 2 .idle 5 true 3 0 [stimB0]).stimNow = ⟨false, false⟩ ∧
    (blk 4 2 .idle 5 true 3 0 [stimB1]).stimNow = ⟨false, true⟩ ∧
    (blk 4 2 .idle 5 true 3 0 [stimB1]).regs = some ⟨5, true, .idle, 3, 0⟩ ∧
    (blk 4 2 .idle 5 false 4 0 [stimB1]).regs = some ⟨5, false, .idle, 4, 0⟩ ∧ 3 ≤ 4 - 1 ∧ 4 - 1 < 4 := by decide

/-- Both sides of each counter check of a CONFIRMING row, by the row itself; and the last selecting values. -/
theorem witness_Confirmation :
    regsOf (exec (.tConfWait false true false) (blk 4 2 .confirming 5 true 1 1 [])) =
      some ⟨5, true, .confirming, 1, 2⟩ ∧
    faultOf (exec (.tConfWait false true false) (blk 4 2 .confirming 5 true 1 2 [])) = some (.counterRange .dcnt 2) ∧
    faultOf (exec (.tConfPass true false) (blk 4 2 .confirming 5 true 1 2 [])) = some (.counterRange .dcnt 2) ∧
    faultOf (exec (.tConfNoise true false) (blk 4 2 .confirming 5 true 3 2 [])) = some (.counterRange .dcnt 2) ∧
    faultOf (exec (.tConfNoise true false) (blk 4 2 .confirming 5 true 4 1 [])) = some (.counterRange .wcnt 4) ∧
    nextOf (fetch (blk 4 2 .confirming 5 true 1 1 [stimB1])) = some (.tConfPass true false) ∧
    nextOf (fetch (blk 4 2 .confirming 5 true 1 0 [stimB1])) = some (.tConfWait true true false) := by decide

/-- Digits 9 and 10, `wcnt` at `N_WAIT - 1` and at `N_WAIT`. -/
theorem witness_Advance :
    regsOf (exec (.tAdvEarly false true true false) (blk 4 2 .advanceEarly 9 true 3 0 [])) =
      some ⟨0, true, .advancePeriod, 3, 0⟩ ∧
    faultOf (exec (.tAdvEarly false true true false) (blk 4 2 .advanceEarly 10 true 3 0 [])) =
      some (.digitDomain 10#4) ∧
    faultOf (exec (.tAdvEarly false true true false) (blk 4 2 .advanceEarly 10 true 4 0 [])) =
      some (.counterRange .wcnt 4) ∧
    faultOf (exec (.tAdvPeriod false true true false) (blk 4 2 .advancePeriod 10 true 3 0 [])) =
      some (.digitDomain 10#4) ∧
    regsOf (exec (.tAdvPeriod false true true false) (blk 4 2 .advancePeriod 9 true 3 0 [])) =
      some ⟨0, true, .idle, 0, 0⟩ := by decide

theorem witness_UninitialisedReadsFault : (uninit [stimB1]).build.wf = true ∧ (uninit [stimB1]).regs = none ∧
    (uninit [stimB1]).stimNow.rst = false := by decide

/-- Clauses of `FaultsAreRecordedInOrder` that vectors F1, F7, F8 and F10 do not meet: both advances of a digit out of
domain with the counters at the ends of their ranges, and a transition that leaves such a digit. -/
theorem witness_FaultsAreRecordedInOrder :
    faultOf (step (blk 4 2 .advanceEarly 10 true 3 1 [stimB0])) = some (.digitDomain 10#4) ∧
    faultOf (step (blk 4 2 .advancePeriod 12 false 3 0 [stimB0])) = some (.digitDomain 12#4) ∧
    nextOf (fetch (blk 4 2 .idle 10 false 1 0 [stimB0])) = some (.tIdleLow false false false) ∧
    regsOf (exec (.tIdleLow false false false) (blk 4 2 .idle 10 false 1 0 [stimB0])) =
      some ⟨10, false, .idle, 2, 0⟩ := by decide

/-- The premises of `DecoderChecksTheCounters` and of the counter clauses of `FaultsAreRecordedInOrder`: each counter
at its last value in range and at the first above it, both above, and `rst` = 1. -/
theorem witness_DecoderChecksTheCounters :
    (nextOf (fetch (blk 4 2 .idle 0 false 3 1 [stimB0]))).isSome = true ∧
    faultOf (fetch (blk 4 2 .idle 0 false 4 1 [stimB0])) = some (.counterRange .wcnt 4) ∧
    faultOf (fetch (blk 4 2 .idle 0 false 3 2 [stimB0])) = some (.counterRange .dcnt 2) ∧
    (faultOf (fetch (blk 4 2 .idle 0 false 4 2 [stimB0]))).isSome = true ∧
    nextOf (fetch (blk 4 2 .idle 0 false 4 2 [stimRst])) = some (.reset .idle false false false false) := by decide

/-- One build for each constraint of R7. -/
theorem witness_IllegalBuildsAreRefused :
    ∀ b ∈ [Build.mk 0 1 1 1 7, Build.mk 1 0 1 1 7, Build.mk 3 1 1 1 7, Build.mk 1 3 1 1 7, Build.mk 1 1 1 1 6],
      ¬(1 ≤ b.nWait ∧ 1 ≤ b.nDeb ∧ (b.nWait ≤ 2 ^ b.wWait ∧ 1 ≤ b.wWait) ∧ (b.nDeb ≤ 2 ^ b.wDeb ∧ 1 ≤ b.wDeb) ∧
        7 ≤ b.portW) := by decide

theorem witness_MergeFormsAgree : 7 ≤ 7 ∧ 7 ≤ 16 := by decide

theorem witness_EveryStepShowsTheDigit : ∃ t, step (blk 4 2 .idle 0 false 0 0 [stimB0]) = .next t :=
  next_of_isSome (by decide)

/-- A block that meets the invariant: it shows digit 7 on a port of 8 bits. -/
def shown : State :=
  { blk 4 2 .confirming 7 true 3 1 [stimB0] with
    seg := some 0x07#7, segN := some 0x78#7, portOut := some 0xF8, others := [0x80] }

theorem witness_Invariant : shown.Inv ∧ shown.regs ≠ none ∧ ∃ t, step shown = .next t :=
  ⟨⟨by decide, fun r h => by cases h; decide, by decide⟩, by decide, next_of_isSome (by decide)⟩

/-- The invariant also has states in which no reset has happened. -/
theorem witness_Invariant_uninit : (uninit [stimRst]).Inv ∧ ∃ t, step (uninit [stimRst]) = .next t :=
  ⟨⟨by decide, (fun r h => by cases h), by decide⟩, next_of_isSome (by decide)⟩

theorem witness_EdgeCheckPhaseIsKept : shown.regs = some ⟨7, true, .confirming, 3, 1⟩ ∧
    (Regs.mk 7 true .confirming 3 1).Phase shown.build ∧
    ∃ t, step shown = .next t ∧ t.regs = some ⟨7, true, .advancePeriod, 3, 0⟩ :=
  ⟨by decide, by decide, next_of_regs (by decide)⟩

/-- For `MachineRefinesTheLoop`, at the upper ends of the ranges of R29. -/
theorem witness_MachineRefinesTheLoop :
    Ready (blk 4 2 .confirming 9 true 3 1 [stimB1]) ⟨9, true, .confirming, 3, 1⟩ ∧
    (blk 4 2 .confirming 9 true 3 1 [stimB1]).stimNow.rst = false := by decide

/-- Each of the four kinds of row of `FrameOfEveryRow` goes on somewhere. -/
theorem witness_FrameOfEveryRow :
    ((∃ t, exec (.tIdleLow true false false) shown = .next t) ∧
      encode (.tIdleLow true false false) = some (.condWord 0x04#7)) ∧
    ((∃ t, exec .seg3 shown = .next t) ∧ encode .seg3 = some (.romAddr 3#4)) ∧
    (∃ t, exec .render shown = .next t) ∧ ∃ t, exec .portMerge shown = .next t :=
  ⟨⟨next_of_isSome (by decide), by decide⟩, ⟨next_of_isSome (by decide), by decide⟩, next_of_isSome (by decide),
    next_of_isSome (by decide)⟩

/-- A row of each kind that writes `digit` writes it. -/
theorem witness_OnlyAdvancesAndResetWriteDigit :
    (∃ t, exec (.tAdvEarly false true false false) shown = .next t ∧ t.regs = some ⟨8, true, .idle, 4, 1⟩) ∧
    (∃ t, exec (.tAdvPeriod false true false false) shown = .next t ∧ t.regs = some ⟨8, true, .idle, 0, 1⟩) ∧
    ∃ t, exec (.reset .idle false false false false) shown = .next t ∧ t.regs = some ⟨0, false, .idle, 0, 0⟩ :=
  ⟨next_of_regs (by decide), next_of_regs (by decide), next_of_regs (by decide)⟩

/-- The three clauses of `SampleCyclesWritePrev`. -/
theorem witness_SampleCyclesWritePrev :
    (∃ t, step (blk 4 2 .idle 0 true 0 0 [stimB0]) = .next t ∧ t.regs = some ⟨0, false, .idle, 1, 0⟩) ∧
    (∃ t, step (blk 4 2 .confirming 0 true 0 1 [stimB0]) = .next t ∧ t.regs = some ⟨0, true, .idle, 1, 0⟩) ∧
    ∃ t, step (blk 4 2 .idle 0 true 0 0 [stimRst1]) = .next t ∧ t.regs = some ⟨0, false, .idle, 0, 0⟩ :=
  ⟨next_of_regs (by decide), next_of_regs (by decide), next_of_regs (by decide)⟩

/-- A row that writes `wcnt` and a row that writes `dcnt`. -/
theorem witness_CounterWriters :
    (∃ t, exec (.tIdleHeld false false) (blk 4 2 .idle 0 true 0 0 []) = .next t ∧
      t.regs = some ⟨0, true, .idle, 1, 0⟩) ∧
    ∃ t, exec (.tConfPass true false) (blk 4 2 .confirming 0 true 0 1 []) = .next t ∧
      t.regs = some ⟨0, true, .advanceEarly, 0, 0⟩ :=
  ⟨next_of_regs (by decide), next_of_regs (by decide)⟩

/-- The four kinds of blind cycle, the last CONFIRMING cycle but one among them. -/
theorem witness_BlindCyclesIgnoreTheButton :
    ((blk 4 2 .idle 0 true 0 0 [stimRst]).stim = stimRst :: [] ∧ stimRst.rst = true) ∧
    (blk 4 2 .advanceEarly 0 true 0 0 [stimB0]).regs = some ⟨0, true, .advanceEarly, 0, 0⟩ ∧
    (blk 4 2 .advancePeriod 0 true 3 0 [stimB0]).regs = some ⟨0, true, .advancePeriod, 3, 0⟩ ∧
    ((blk 4 2 .confirming 0 true 0 0 [stimB0]).regs = some ⟨0, true, .confirming, 0, 0⟩ ∧
      0 ≠ (blk 4 2 .confirming 0 true 0 0 [stimB0]).build.nDeb - 1) := by decide

theorem witness_CounterWidthsAreNotObservable :
    (blk 4 2 .idle 0 false 0 0 [stimB0]).build.wf = true ∧
    ({ (blk 4 2 .idle 0 false 0 0 [stimB0]).build with wWait := 2, wDeb := 1 } : Build).wf = true ∧
    ∃ t, step (blk 4 2 .idle 0 false 0 0 [stimB0]) = .next t :=
  ⟨by decide, by decide, next_of_isSome (by decide)⟩

/-- One period of two iterations, from digit 9. -/
theorem witness_QuietPeriodsCountTheDigit :
    Ready (blk 2 2 .idle 9 true 0 0 [stimB0, stimB0, stimB0]) ⟨9, true, .idle, 0, 0⟩ ∧
    (blk 2 2 .idle 9 true 0 0 [stimB0, stimB0, stimB0]).stim = List.replicate (1 * (2 + 1)) ⟨false, false⟩ ++ [] := by
  decide

/-- For `ConfirmedPressAdvancesEarly`: a press that bounces low in the delay. -/
theorem witness_ConfirmedPressAdvancesEarly :
    Ready (blk 4 2 .idle 3 false 3 0 [stimB1, stimB0, stimB1, stimB0]) ⟨3, false, .idle, 3, 0⟩ ∧
    [stimB0].length = 2 - 1 ∧ (∀ y ∈ [stimB0], y.rst = false) ∧ stimB0.rst = false ∧
    (blk 4 2 .idle 3 false 3 0 [stimB1, stimB0, stimB1, stimB0]).stim =
      ⟨false, true⟩ :: ([stimB0] ++ ⟨false, true⟩ :: stimB0 :: []) := by decide

/-- For `NoiseLeavesTheDigit`, with the shortest delay: `N_DEB` = 1, where no cycle lies between the edge and the
confirmation. -/
theorem witness_NoiseLeavesTheDigit : Ready (blk 1 1 .idle 3 false 0 0 [stimB1, stimB0]) ⟨3, false, .idle, 0, 0⟩ ∧
    ([] : List Stim).length = 1 - 1 ∧ (∀ y ∈ ([] : List Stim), y.rst = false) ∧
    (blk 1 1 .idle 3 false 0 0 [stimB1, stimB0]).stim = ⟨false, true⟩ :: ([] ++ ⟨false, false⟩ :: []) := by decide

theorem witness_DoubleAdvance :
    Ready (blk 4 2 .advanceEarly 9 true 3 0 [stimB1, stimB1]) ⟨9, true, .advanceEarly, 3, 0⟩ ∧
    3 = (blk 4 2 .advanceEarly 9 true 3 0 []).build.nWait - 1 ∧ stimB1.rst = false ∧
    (blk 4 2 .advanceEarly 9 true 3 0 [stimB1, stimB1]).stim = stimB1 :: stimB1 :: [] := by decide

theorem witness_HeldButtonNeverRetriggers :
    Ready (blk 4 2 .advancePeriod 9 true 3 0 [stimB1, stimB1]) ⟨9, true, .advancePeriod, 3, 0⟩ ∧
    (blk 4 2 .advancePeriod 9 true 3 0 [stimB1, stimB1]).stim = List.replicate 2 ⟨false, true⟩ ++ [] := by decide

/-- Both clauses: the last iteration but one of a period, and the last. -/
theorem witness_MissedPressAfterNoise :
    (Ready (blk 4 2 .confirming 3 true 2 1 [stimB0, stimB1]) ⟨3, true, .confirming, 2, 1⟩ ∧
      (Regs.mk 3 true .confirming 2 1).Phase ⟨4, 2, 10, 10, 8⟩ ∧ 1 = 2 - 1 ∧ 2 + 1 < 4 ∧
      (blk 4 2 .confirming 3 true 2 1 [stimB0, stimB1]).stim = ⟨false, false⟩ :: ⟨false, true⟩ :: []) ∧
    (Ready (blk 4 2 .confirming 3 true 3 1 [stimB0, stimB0, stimB1]) ⟨3, true, .confirming, 3, 1⟩ ∧
      (Regs.mk 3 true .confirming 3 1).Phase ⟨4, 2, 10, 10, 8⟩ ∧ 1 = 2 - 1 ∧ 3 = 4 - 1 ∧ stimB0.rst = false ∧
      (blk 4 2 .confirming 3 true 3 1 [stimB0, stimB0, stimB1]).stim =
        ⟨false, false⟩ :: stimB0 :: ⟨false, true⟩ :: []) := by decide

theorem witness_EdgeCheckEnds :
    Ready (blk 4 2 .confirming 3 true 2 0 [stimB1, stimB0, stimB1]) ⟨3, true, .confirming, 2, 0⟩ ∧
    [stimB1, stimB0, stimB1].length = 2 + 1 ∧ (∀ x ∈ [stimB1, stimB0, stimB1], x.rst = false) ∧
    (blk 4 2 .confirming 3 true 2 0 [stimB1, stimB0, stimB1]).stim = [stimB1, stimB0, stimB1] ++ [] := by decide

theorem witness_LoadedProgramIsLegal : (Build.mk 1 1 1 1 7).wf = true ∧ (StimProgram.mk 1000 20 [.boot]).wf = true ∧
    ((State.powerOn ⟨1, 1, 1, 1, 7⟩).loadProgram ⟨1000, 20, [.boot]⟩).build.wf = true := by decide

/-- For the clauses of `StepRunsTheDecodedInstruction`: counters in range, a counter above it, and no reset yet. -/
theorem witness_StepRunsTheDecodedInstruction : Ready shown ⟨7, true, .confirming, 3, 1⟩ ∧
    ((blk 4 2 .idle 0 false 4 0 [stimB0]).build.wf = true ∧ (blk 4 2 .idle 0 false 4 0 [stimB0]).stimNow.rst = false ∧
      (blk 4 2 .idle 0 false 4 0 [stimB0]).regs = some ⟨0, false, .idle, 4, 0⟩ ∧ ¬(4 ≤ 4 - 1 ∧ 0 ≤ 2 - 1)) ∧
    ((uninit [stimRst]).build.wf = true ∧ (uninit [stimRst]).regs = none ∧ (uninit [stimRst]).stimNow.rst = true) ∧
    romLookup 7#4 = some 0x07#7 := by decide

/-- The ends of both ranges of `PlacedWordRunsNext`, before any reset. -/
theorem witness_PlacedWordRunsNext :
    nextOf (fetch ((uninit []).withFetchWord 8 127)) = some (.reset .advancePeriod true true true true) ∧
    nextOf (fetch ((uninit []).withFetchWord 7 0x0C)) = some (.tIdleHeld false false) ∧
    nextOf (fetch ((uninit []).withFetchWord 8 0x19)) = some (.tConfPass false false) ∧
    (nextOf (step ((uninit []).withFetchWord 8 9))).bind State.seg = some 0x6F#7 ∧
    faultOf (step ((uninit []).withFetchWord 8 10)) = some (.romDomain 10#4) ∧
    faultOf (step ((uninit []).withFetchWord 8 15)) = some (.romDomain 15#4) := by decide

end Sys2Proof.Tests
end

section
/-! SUPPORT. Inversions of the rows and of a cycle that the statements about the registers share: what each
transition leaves in the registers when it goes on, which rows leave them alone, and what `rst` = 1 does. -/

namespace Sys2Proof.Machine

/-! ## The registers after a row -/

section Rows

variable {s t : State} {r : Regs} (hr : s.regs = some r)
include hr

theorem transition_eq_next_of_some {f : Build → Regs → Except Fault Regs} :
    transition s f = .next t ↔ s.build.wf = true ∧ ∃ r', f s.build r = .ok r' ∧ t = s.setRegs r' := by
  simp [transition_eq_next, hr]

theorem exec_tIdleLow_eq_next {p w d : Bool} :
    exec (.tIdleLow p w d) s = .next t ↔
      s.build.wf = true ∧ r.wcnt ≤ s.build.nWait - 1 ∧ t = s.setRegs (countIter w (r.sample false)) := by
  simp [exec_tIdleLow, transition_eq_next_of_some hr, endIter_eq_ok, and_assoc]

theorem exec_tIdleHeld_eq_next {w d : Bool} :
    exec (.tIdleHeld w d) s = .next t ↔
      s.build.wf = true ∧ r.wcnt ≤ s.build.nWait - 1 ∧ t = s.setRegs (countIter w (r.sample true)) := by
  simp [exec_tIdleHeld, transition_eq_next_of_some hr, endIter_eq_ok, and_assoc]

theorem exec_tIdleEdge_eq_next {w d : Bool} :
    exec (.tIdleEdge w d) s = .next t ↔
      s.build.wf = true ∧ t = s.setRegs { r.sample true with dcnt := 0, state := .confirming } := by
  simp [exec_tIdleEdge, transition_eq_next_of_some hr]

theorem exec_tConfWait_eq_next {b p w : Bool} :
    exec (.tConfWait b p w) s = .next t ↔
      s.build.wf = true ∧ r.dcnt ≤ s.build.nDeb - 1 ∧ t = s.setRegs { r with dcnt := r.dcnt + 1 } := by
  rw [exec_tConfWait, transition_eq_next_of_some hr]
  rcases Nat.lt_or_ge (s.build.nDeb - 1) r.dcnt with hd | hd
  · simp [checkDeb_of_gt hd, hd]
  · simp [checkDeb_of_le hd, hd]

theorem exec_tConfPass_eq_next {p w : Bool} :
    exec (.tConfPass p w) s = .next t ↔
      s.build.wf = true ∧ r.dcnt ≤ s.build.nDeb - 1 ∧
        t = s.setRegs { r with dcnt := 0, state := .advanceEarly } := by
  rw [exec_tConfPass, transition_eq_next_of_some hr]
  rcases Nat.lt_or_ge (s.build.nDeb - 1) r.dcnt with hd | hd
  · simp [checkDeb_of_gt hd, hd]
  · simp [checkDeb_of_le hd, hd]

theorem exec_tConfNoise_eq_next {p w : Bool} :
    exec (.tConfNoise p w) s = .next t ↔
      s.build.wf = true ∧ (r.wcnt ≤ s.build.nWait - 1 ∧ r.dcnt ≤ s.build.nDeb - 1) ∧
        t = s.setRegs (countIter w { r with dcnt := 0 }) := by
  rw [exec_tConfNoise, transition_eq_next_of_some hr]
  cases hc : checkCounters s.build r with
  | ok u => simp [checkCounters_eq_ok.mp hc, endIter_eq_ok]
  | error f =>
    have hout : ¬ (r.wcnt ≤ s.build.nWait - 1 ∧ r.dcnt ≤ s.build.nDeb - 1) := fun hin => by
      simp [checkCounters_of_le hin.1 hin.2] at hc
    simp [hout]

theorem exec_tAdvEarly_eq_next {b p w d : Bool} :
    exec (.tAdvEarly b p w d) s = .next t ↔
      s.build.wf = true ∧ r.wcnt ≤ s.build.nWait - 1 ∧ ∃ n, inc10 r.digit = .ok n ∧
        t = s.setRegs { countIter w r with digit := n } := by
  rw [exec_tAdvEarly, transition_eq_next_of_some hr]
  rcases Nat.lt_or_ge (s.build.nWait - 1) r.wcnt with hw | hw
  · simp [endIter_of_gt hw, hw]
  · cases hn : inc10 r.digit <;> simp [endIter_of_le hw, hw]

theorem exec_tAdvPeriod_eq_next {b p w d : Bool} :
    exec (.tAdvPeriod b p w d) s = .next t ↔
      s.build.wf = true ∧ ∃ n, inc10 r.digit = .ok n ∧
        t = s.setRegs { r with digit := n, wcnt := 0, state := .idle } := by
  rw [exec_tAdvPeriod, transition_eq_next_of_some hr]
  cases hn : inc10 r.digit <;> simp

end Rows

theorem exec_reset_eq_next {c : Fsm} {b p w d : Bool} {s t : State} :
    exec (.reset c b p w d) s = .next t ↔ s.build.wf = true ∧ t = s.setRegs Regs.reset := by
  rw [exec_reset, onBuild_eq_next, Host.Outcome.next.injEq, eq_comm (b := t)]

/-- The rows without a condition word, the ROM lookups and the two rows of the display, write no register (R31, R90). -/
theorem exec_keeps_regs {i : Instr} {s t : State} (h : exec i s = .next t)
    (hi : ∀ c, encode i ≠ some (.condWord c)) : t.regs = s.regs := by
  cases execForm i with
  | reset c b p w d => exact absurd rfl (hi _)
  | transition f c hc hf => exact absurd hc (hi c)
  | lookup d =>
    rw [exec_decodeRom] at h
    obtain ⟨-, p, -, rfl⟩ := romRow_eq_next.mp h
    rfl
  | render =>
    rw [exec_render] at h
    obtain ⟨-, r, p, -, -, ⟨⟩⟩ := withDrive_eq_next.mp h
    rfl
  | portMerge =>
    rw [exec_portMerge] at h
    obtain ⟨-, r, p, -, -, ⟨⟩⟩ := withDrive_eq_next.mp h
    rfl

/-! ## A cycle -/

/-- A row selected by a condition word goes on only in a legal build, with nothing but the registers written. -/
theorem exec_selectRow_eq_setRegs {rst : Bool} {c : Fsm} {b p w d : Bool} {s t : State}
    (h : exec (selectRow rst c b p w d) s = .next t) : s.build.wf = true ∧ ∃ r', t = s.setRegs r' := by
  cases rst with
  | true =>
    obtain ⟨hb, rfl⟩ := exec_reset_eq_next.mp h
    exact ⟨hb, _, rfl⟩
  | false =>
    obtain ⟨f, hf⟩ := exec_selectRow c b p w d
    obtain ⟨hb, r, r', -, -, rfl⟩ := transition_eq_next.mp (hf s ▸ h)
    exact ⟨hb, r', rfl⟩

/-- A cycle that goes on leaves the registers as its row leaves them: the settling of the outputs writes none (R90). -/
theorem step_eq_next_row {s t : State} {r : Regs} (h : step s = .next t) (hr : s.regs = some r) :
    ∃ u, exec (selectRow s.stimNow.rst r.state s.stimNow.btn r.prev (wlast s.build r) (dlast s.build r)) s = .next u ∧
      t.regs = u.regs := by
  obtain ⟨i, u, hi, hu, ht⟩ := step_eq_next.mp h
  obtain ⟨-, ⟨hn, -⟩ | ⟨q, hq, -, rfl⟩⟩ := fetch_eq_next.mp hi
  · simp [hr] at hn
  · obtain rfl : r = q := Option.some.inj (hr.symm.trans hq)
    obtain ⟨hb, r', rfl⟩ := exec_selectRow_eq_setRegs hu
    obtain ⟨_, p, -, -, rfl⟩ := (settle_eq_next (by simpa using hb)).mp ht
    exact ⟨_, hu, rfl⟩

/-- With `rst` = 1 the cycle selects `RESET` from every state, the uninitialised one too (R106). -/
theorem fetch_of_rst {s : State} (hb : s.build.wf = true) (hi : s.stimNow.rst = true) :
    ∃ c b p w d, fetch s = .next (.reset c b p w d) := by
  cases hr : s.regs with
  | none => exact ⟨_, _, _, _, _, fetch_of_none_rst hb hr hi⟩
  | some r =>
    have hf := fetch_of_some hb hr (.inl hi)
    rw [hi] at hf
    exact ⟨_, _, _, _, _, hf⟩

/-- The state after a cycle with `rst` = 1: the reset values, and the display of the digit 0 (R28, R106). -/
theorem step_of_rst {s : State} (hb : s.build.wf = true) (hi : s.stimNow.rst = true) :
    step s = .next ((s.setRegs Regs.reset).nextCycle.display 0x3F#7) := by
  obtain ⟨c, b, p, w, d, hf⟩ := fetch_of_rst hb hi
  exact step_of_exec hb hf (exec_reset_eq_next.mpr ⟨hb, rfl⟩) rfl

theorem step_of_fetch_fault {s : State} {f : Fault} (h : fetch s = .fault f) : step s = .fault f := by
  rw [step, h, andThen_fault]

theorem withDrive_of_none {s : State} (hb : s.build.wf = true) (hr : s.regs = none) (k : Pattern → Out) :
    withDrive s k = .fault (.uninit .digit) := by
  rw [withDrive, onBuild_of_wf hb, withRegs_of_none hr]

/-- The flag after a selected row: in IDLE the sampled `btn`, in the other states what it was (R17). -/
theorem prev_of_exec_selectRow {s u : State} {r r' : Regs} {b p w d : Bool}
    (h : exec (selectRow false r.state b p w d) s = .next u) (hr : s.regs = some r) (hr' : u.regs = some r') :
    r'.prev = if r.state = .idle then b else r.prev := by
  cases hs : r.state <;> rw [hs] at h
  case idle =>
    cases b
    · obtain ⟨-, -, rfl⟩ := (exec_tIdleLow_eq_next hr).mp h
      cases hr'; simp
    · cases p
      · obtain ⟨-, rfl⟩ := (exec_tIdleEdge_eq_next hr).mp h
        cases hr'; simp
      · obtain ⟨-, -, rfl⟩ := (exec_tIdleHeld_eq_next hr).mp h
        cases hr'; simp
  case confirming =>
    cases d
    · obtain ⟨-, -, rfl⟩ := (exec_tConfWait_eq_next hr).mp h
      cases hr'; simp
    · cases b
      · obtain ⟨-, -, rfl⟩ := (exec_tConfNoise_eq_next hr).mp h
        cases hr'; simp
      · obtain ⟨-, -, rfl⟩ := (exec_tConfPass_eq_next hr).mp h
        cases hr'; simp
  case advanceEarly =>
    obtain ⟨-, -, n, -, rfl⟩ := (exec_tAdvEarly_eq_next hr).mp h
    cases hr'; simp
  case advancePeriod =>
    obtain ⟨-, n, -, rfl⟩ := (exec_tAdvPeriod_eq_next hr).mp h
    cases hr'; simp

/-! ## The statements -/

/-- Settles O14: `RESET` is selected whatever the registers are, and the outputs settle on the digit 0. -/
theorem resetCycle : Obligations.ResetCycle := by
  intro s hb hi
  exact ⟨fun c b p w d => rfl, fetch_of_rst hb hi, _, step_of_rst hb hi, rfl, rfl, rfl, rfl, rfl⟩

/-- Settles O27: a read of the registers, by the decoder, by a transition or for the display, faults where there are
none. -/
theorem uninitialisedReadsFault : Obligations.UninitialisedReadsFault := by
  refine ⟨fun b => ⟨rfl, rfl⟩, fun s hb hr => ?_⟩
  have cycle (hi : s.stimNow.rst = false) : step s = .fault (.uninit .state) :=
    step_of_fetch_fault (fetch_of_none_noRst hb hr hi)
  have render : exec .render s = .fault (.uninit .digit) := by rw [exec_render, withDrive_of_none hb hr]
  have merge : exec .portMerge s = .fault (.uninit .digit) := by rw [exec_portMerge, withDrive_of_none hb hr]
  have row {i : Instr} {f : Build → Regs → Except Fault Regs} (hf : exec i s = transition s f) :
      ∃ n, exec i s = .fault (.uninit n) := ⟨_, hf.trans (transition_of_none hb hr)⟩
  exact ⟨fun hi => ⟨_, cycle hi⟩, render, ⟨_, merge⟩,
    fun p w d => row (exec_tIdleLow p w d s), fun w d => row (exec_tIdleHeld w d s),
    fun w d => row (exec_tIdleEdge w d s), fun b p w => row (exec_tConfWait b p w s),
    fun p w => row (exec_tConfPass p w s), fun p w => row (exec_tConfNoise p w s),
    fun b p w d => row (exec_tAdvEarly b p w d s), fun b p w d => row (exec_tAdvPeriod b p w d s)⟩

/-- Settles O41, row by row: the sampling and the confirming transitions leave `digit` as it was, and the rows without
a condition word leave all registers. -/
theorem onlyAdvancesAndResetWriteDigit : Obligations.OnlyAdvancesAndResetWriteDigit := by
  intro i s t r r' h hr hr' hne
  cases i with
  | reset c b p w d =>
    obtain ⟨-, rfl⟩ := exec_reset_eq_next.mp h
    cases hr'
    exact .inr (.inr ⟨c, b, p, w, d, rfl, rfl⟩)
  | tAdvEarly b p w d => exact .inl ⟨b, p, w, d, rfl⟩
  | tAdvPeriod b p w d => exact .inr (.inl ⟨b, p, w, d, rfl⟩)
  | tIdleLow p w d =>
    obtain ⟨-, -, rfl⟩ := (exec_tIdleLow_eq_next hr).mp h
    cases hr'; simp at hne
  | tIdleHeld w d =>
    obtain ⟨-, -, rfl⟩ := (exec_tIdleHeld_eq_next hr).mp h
    cases hr'; simp at hne
  | tIdleEdge w d =>
    obtain ⟨-, rfl⟩ := (exec_tIdleEdge_eq_next hr).mp h
    cases hr'; simp at hne
  | tConfWait b p w =>
    obtain ⟨-, -, rfl⟩ := (exec_tConfWait_eq_next hr).mp h
    cases hr'; simp at hne
  | tConfPass p w =>
    obtain ⟨-, -, rfl⟩ := (exec_tConfPass_eq_next hr).mp h
    cases hr'; simp at hne
  | tConfNoise p w =>
    obtain ⟨-, -, rfl⟩ := (exec_tConfNoise_eq_next hr).mp h
    cases hr'; simp at hne
  | seg0 | seg1 | seg2 | seg3 | seg4 | seg5 | seg6 | seg7 | seg8 | seg9 | romOodA | romOodB | romOodC | romOodD
  | romOodE | romOodF | render | portMerge =>
    have hk : some r' = some r := hr' ▸ hr ▸ exec_keeps_regs h nofun
    cases hk; exact absurd rfl hne

/-- Settles O42, by the row that the cycle selects: `RESET`, or the row of the present state. -/
theorem sampleCyclesWritePrev : Obligations.SampleCyclesWritePrev := by
  intro s t r r' h hr hr'
  obtain ⟨u, hu, hreg⟩ := step_eq_next_row h hr
  rw [hreg] at hr'
  cases hi : s.stimNow.rst <;> rw [hi] at hu
  case true =>
    obtain ⟨-, rfl⟩ := exec_reset_eq_next.mp hu
    cases hr'
    simp [Regs.reset]
  case false =>
    have hp := prev_of_exec_selectRow hu hr hr'
    exact ⟨fun _ hs => hp.trans (if_pos hs), fun _ hs => hp.trans (if_neg hs), nofun⟩

end Sys2Proof.Machine
end

section
/-! SUPPORT. The derived bits, the fields of the condition word, the rows of the two maps and the stimulus words, and
the statements about the encoding that follow from them. -/

namespace Sys2Proof.Machine

/-! ## The condition word -/

theorem wlast_eq_true_iff {b : Build} {r : Regs} : wlast b r = true ↔ r.wcnt = b.nWait - 1 := beq_iff_eq

theorem dlast_eq_true_iff {b : Build} {r : Regs} : dlast b r = true ↔ r.dcnt = b.nDeb - 1 := beq_iff_eq

/-- The layout of a condition word: each field is read back from its place (R45). -/
theorem packCond_fields (r : Bool) (s : Fsm) (b p w d : Bool) :
    (packCond r s b p w d).getLsbD 6 = r ∧ (packCond r s b p w d).extractLsb' 4 2 = s.code ∧
    (packCond r s b p w d).getLsbD 3 = b ∧ (packCond r s b p w d).getLsbD 2 = p ∧
    (packCond r s b p w d).getLsbD 1 = w ∧ (packCond r s b p w d).getLsbD 0 = d := by
  revert r b p w d; cases s <;> decide

/-! ## The rows of the maps -/

/-- A row of the maps carries the mnemonic of its operation (R47, R48). -/
theorem mnemonic_of_row {i : Instr} {r : Row} (h : i.row = some r) : r.mnemonic = i.mnemonic := by
  cases i <;> cases h <;> rfl

/-- An address decodes to the operation whose row stands at its place in the map (R48). -/
theorem row_decodeRom (d : Digit) : (decodeRom d).row = romRows[d.toNat]? := by
  revert d; decide

/-- The rows of the ROM map stand in the order of their addresses (R48). -/
theorem romRows_value {n : Nat} {r : Row} (h : romRows[n]? = some r) : r.value = n := by
  obtain ⟨hn, rfl⟩ := List.getElem?_eq_some_iff.mp h
  exact (by decide : ∀ k (hk : k < romRows.length), romRows[k].value = k) n hn

theorem romRows_getElem?_iff {n : Nat} {r : Row} (h : r ∈ romRows) : romRows[n]? = some r ↔ r.value = n := by
  obtain ⟨k, hk⟩ := List.mem_iff_getElem?.mp h
  exact ⟨romRows_value, fun hv => (romRows_value hk).symm.trans hv ▸ hk⟩

/-- A row of the ROM map compares all four address bits, so it selects one address only (R48). -/
theorem selects_romAddr_iff {r : Row} (h : r ∈ romRows) (d : Digit) :
    r.selects .romAddr d.toNat = true ↔ r.value = d.toNat := by
  obtain ⟨hf, hm⟩ := (by decide : ∀ r ∈ romRows, r.format = .romAddr ∧ r.mask = 2 ^ 4 - 1) r h
  rw [Row.selects, hf, hm, Nat.and_two_pow_sub_one_of_lt_two_pow d.isLt, eq_comm (a := r.value)]
  simp

/-! ## The stimulus words -/

/-- `K` copies of a statement of one cycle are `K` copies of its cycle (R51). -/
theorem flatMap_expandStmt_replicate {x : Stmt} {y : Stim} (h : expandStmt x = [y]) (k : Nat) :
    (List.replicate k x).flatMap expandStmt = List.replicate k y := by
  rw [List.flatMap_replicate, h, List.flatten_replicate_singleton]

/-- Each of the four words is the word of the inputs it stands for (R51). -/
theorem stimWord_stimOfWord (w : BitVec 2) : stimWord (stimOfWord w) = w := by
  revert w; decide

theorem encodeProgram_eq_flatMap (p : StimProgram) :
    encodeProgram p = p.body.flatMap fun x => (expandStmt x).map stimWord := by
  rw [encodeProgram, expandProgram, List.map_flatMap]

/-! ## The statements -/

/-- Settles O57: with `rst` = 0 the outcome of the counter check is that of the cycle, and with `rst` = 1 or both
counters in range the decoder goes on. -/
theorem decoderChecksTheCounters : Obligations.DecoderChecksTheCounters := by
  refine ⟨fun b r => ⟨wlast_eq_true_iff, dlast_eq_true_iff⟩, fun s r hb hr => ?_⟩
  have stop {f : Fault} (hi : s.stimNow.rst = false) (h : checkCounters s.build r = .error f) : fetch s = .fault f :=
    fetch_of_error hb hr hi h
  exact ⟨fun hi hw _ => stop hi (checkCounters_of_wait hw), fun hi hw hd => stop hi (checkCounters_of_deb hw hd),
    fun hi hw _ => ⟨_, _, stop hi (checkCounters_of_wait hw)⟩, fun hw hd => ⟨_, fetch_of_some hb hr (.inr ⟨hw, hd⟩)⟩,
    fetch_of_rst hb⟩

/-- Settles O4: a row selects the address at which it stands in the map, and the decoder answers with the row at the
address. -/
theorem everyRomAddressHasOneRow : Obligations.EveryRomAddressHasOneRow := by
  intro d
  have hd : romRows[d.toNat]? = some (romRows[d.toNat]'d.isLt) := List.getElem?_eq_getElem d.isLt
  have hrow := (row_decodeRom d).trans hd
  refine ⟨⟨_, List.getElem_mem _, hrow, mnemonic_of_row hrow⟩, fun r hr => ?_⟩
  rw [selects_romAddr_iff hr, row_decodeRom, romRows_getElem?_iff hr]

/-- Settles O7, from the layout of the word and the two comparisons of R46. -/
theorem conditionWordFields : Obligations.ConditionWordFields := by
  intro b r i
  obtain ⟨hrst, hstate, hbtn, hprev, hw, hd⟩ :=
    packCond_fields i.rst r.state i.btn r.prev (wlast b r) (dlast b r)
  exact ⟨hrst, hstate, hbtn, hprev, (Bool.eq_iff_iff.mp hw).trans wlast_eq_true_iff,
    (Bool.eq_iff_iff.mp hd).trans dlast_eq_true_iff⟩

/-- Settles O53: copies expand to copies, and encoding goes statement by statement; the words and the
pseudo-statements are the table of R51, by definition. -/
theorem stimulusNotation : Obligations.StimulusNotation := by
  have copies {x : Stmt} {y : Stim} (h : expandStmt x = [y]) (k : Nat) :
      List.replicate k y = (List.replicate k x).flatMap expandStmt := (flatMap_expandStmt_replicate h k).symm
  exact ⟨rfl, rfl, rfl, rfl, copies rfl, copies rfl, fun _ => rfl, fun _ => rfl, rfl, stimWord_stimOfWord,
    encodeProgram_eq_flatMap, fun _ _ => ⟨rfl, rfl, rfl, rfl⟩⟩

end Sys2Proof.Machine
end

section
/-! SUPPORT. The ROM row of an address, in the domain and outside it, the corner cases of the table, and the statements
about the ROM that follow from them. -/

namespace Sys2Proof.Machine

/-! ## The rows -/

/-- An address in the domain answers with its pattern on `seg`, and changes nothing else (R52). -/
theorem exec_decodeRom_of_some {d : Digit} {p : Pattern} {s : State} (hb : s.build.wf = true)
    (hp : romLookup d = some p) : exec (decodeRom d) s = .next (s.setSeg p) := by
  rw [exec_decodeRom]
  exact romRow_eq_next.mpr ⟨hb, p, hp, rfl⟩

/-- An address outside the domain stops with itself recorded (R65). -/
theorem exec_decodeRom_of_ge {d : Digit} {s : State} (hb : s.build.wf = true) (hd : 10 ≤ d.toNat) :
    exec (decodeRom d) s = .fault (.romDomain d) := by
  rw [exec_decodeRom, romRow_of_ge hb hd]

theorem State.setSeg_injective (s : State) {p q : Pattern} (h : s.setSeg p = s.setSeg q) : p = q :=
  Option.some.inj (congrArg State.seg h)

/-! ## The table -/

/-- Only the addresses of the domain have a pattern (R52, R65). -/
theorem le_of_romLookup {d : Digit} {p : Pattern} (h : romLookup d = some p) : d.toNat ≤ 9 := by
  by_contra hd
  simp [romLookup_eq_none.mpr (by omega : 10 ≤ d.toNat)] at h

/-- Two lit segments is the fewest, and only 1 has it (R56). -/
theorem litCount_of_romLookup {d : Digit} {p : Pattern} (h : romLookup d = some p) :
    2 ≤ litCount p ∧ (litCount p = 2 → d = 1#4) :=
  (by decide : ∀ d : Digit, ∀ p ∈ romLookup d, 2 ≤ litCount p ∧ (litCount p = 2 → d = 1#4)) d p h

/-- Only 8 lights all seven segments (R63). -/
theorem eq_eight_of_romLookup_allLit {d : Digit} (h : romLookup d = some 0b1111111#7) : d = 8#4 := by
  revert d; decide

/-! ## The statements -/

/-- Settles O10: the pattern is the content of the address, and a second one would put another value on `seg` of a
legal block. -/
theorem romLookupIsTotalAndPure : Obligations.RomLookupIsTotalAndPure := by
  intro d hd
  obtain ⟨p, hp⟩ := romLookup_of_le hd
  refine ⟨p, fun s hb => exec_decodeRom_of_some hb hp, fun q hq => ?_⟩
  have hb : (State.powerOn ⟨1, 1, 1, 1, 7⟩).build.wf = true := by decide
  have hqp := (hq _ hb).symm.trans (exec_decodeRom_of_some hb hp)
  exact State.setSeg_injective _ (Host.Outcome.next.inj hqp)

/-- Settles O8: each row is the row of its address, whose content is read off the table. -/
theorem segRowsGiveThePatterns : Obligations.SegRowsGiveThePatterns := by
  refine ⟨fun s hb => ?_, by decide, ⟨rfl, rfl⟩, fun d p h => ?_⟩
  · have row (d : Digit) {p : Pattern} (hp : romLookup d = some p) :
        exec (decodeRom d) s = .next { s with seg := some p } := exec_decodeRom_of_some hb hp
    exact ⟨row 0#4 rfl, row 1#4 rfl, row 2#4 rfl, row 3#4 rfl, row 4#4 rfl, row 5#4 rfl, row 6#4 rfl, row 7#4 rfl,
      row 8#4 rfl, row 9#4 rfl⟩
  · have hp := romRead_eq_ok.mp h
    obtain ⟨hfewest, hone⟩ := litCount_of_romLookup hp
    exact ⟨le_of_romLookup hp, hfewest, hone, fun hall => eq_eight_of_romLookup_allLit (hall ▸ hp)⟩

/-- Settles O9: each row is the row of its address, which lies outside the domain. -/
theorem romOutOfDomainFaults : Obligations.RomOutOfDomainFaults := by
  refine ⟨fun s hb => ?_, fun d => romRead_of_ge⟩
  have row (d : Digit) (hd : 10 ≤ d.toNat) : exec (decodeRom d) s = .fault (.romDomain d) :=
    exec_decodeRom_of_ge hb hd
  exact ⟨row 10#4 (by decide), row 11#4 (by decide), row 12#4 (by decide), row 13#4 (by decide),
    row 14#4 (by decide), row 15#4 (by decide)⟩

end Sys2Proof.Machine
end

section
/-! SUPPORT. The row that a cycle with `rst` = 0 selects, the faults of the transitions, repeated advances of a digit,
and the statements about the FSM transitions that follow from them. -/

namespace Sys2Proof.Machine

/-! ## The selected row -/

/-- With `rst` = 0 and both counters in range the row is selected by the state, the button, the flag and the two
derived bits (R47, R68). -/
theorem fetch_of_inRange {s : State} {r : Regs} (hb : s.build.wf = true) (hr : s.regs = some r)
    (hi : s.stimNow.rst = false) (hw : r.wcnt ≤ s.build.nWait - 1) (hd : r.dcnt ≤ s.build.nDeb - 1) :
    fetch s = .next (selectRow false r.state s.stimNow.btn r.prev (wlast s.build r) (dlast s.build r)) := by
  rw [fetch_of_some hb hr (.inr ⟨hw, hd⟩), hi]

theorem dlast_of_lt {b : Build} {r : Regs} (h : r.dcnt < b.nDeb - 1) : dlast b r = false :=
  beq_false_of_ne h.ne

/-! ## The faults of the transitions -/

section Faults

variable {s : State} {r : Regs} (hb : s.build.wf = true) (hr : s.regs = some r)
include hb hr

theorem exec_tIdleLow_of_gt (p w d : Bool) (hw : s.build.nWait - 1 < r.wcnt) :
    exec (.tIdleLow p w d) s = .fault (.counterRange .wcnt r.wcnt) := by
  rw [exec_tIdleLow]
  exact transition_of_error hb hr (endIter_of_gt (r := r.sample false) hw w)

theorem exec_tIdleHeld_of_gt (w d : Bool) (hw : s.build.nWait - 1 < r.wcnt) :
    exec (.tIdleHeld w d) s = .fault (.counterRange .wcnt r.wcnt) := by
  rw [exec_tIdleHeld]
  exact transition_of_error hb hr (endIter_of_gt (r := r.sample true) hw w)

theorem exec_tConfWait_of_gt (b p w : Bool) (hd : s.build.nDeb - 1 < r.dcnt) :
    exec (.tConfWait b p w) s = .fault (.counterRange .dcnt r.dcnt) := by
  rw [exec_tConfWait]
  exact transition_of_error hb hr (by simp only [checkDeb_of_gt hd])

theorem exec_tConfPass_of_gt (p w : Bool) (hd : s.build.nDeb - 1 < r.dcnt) :
    exec (.tConfPass p w) s = .fault (.counterRange .dcnt r.dcnt) := by
  rw [exec_tConfPass]
  exact transition_of_error hb hr (by simp only [checkDeb_of_gt hd])

/-- The fault of the check of both counters is the fault of `T_CONF_NOISE` (R77). -/
theorem exec_tConfNoise_of_error (p w : Bool) {f : Fault} (h : checkCounters s.build r = .error f) :
    exec (.tConfNoise p w) s = .fault f := by
  rw [exec_tConfNoise]
  exact transition_of_error hb hr (by simp only [h])

/-- The end of the iteration faults before the digit is looked at (R78, R95). -/
theorem exec_tAdvEarly_of_gt (b p w d : Bool) (hw : s.build.nWait - 1 < r.wcnt) :
    exec (.tAdvEarly b p w d) s = .fault (.counterRange .wcnt r.wcnt) := by
  rw [exec_tAdvEarly]
  exact transition_of_error hb hr (by simp only [endIter_of_gt hw])

theorem exec_tAdvEarly_of_ge (b p w d : Bool) (hw : r.wcnt ≤ s.build.nWait - 1) (hd : 10 ≤ r.digit.toNat) :
    exec (.tAdvEarly b p w d) s = .fault (.digitDomain r.digit) := by
  rw [exec_tAdvEarly]
  exact transition_of_error hb hr (by simp only [endIter_of_le hw, inc10_of_ge hd])

theorem exec_tAdvPeriod_of_ge (b p w d : Bool) (hd : 10 ≤ r.digit.toNat) :
    exec (.tAdvPeriod b p w d) s = .fault (.digitDomain r.digit) := by
  rw [exec_tAdvPeriod]
  exact transition_of_error hb hr (by simp only [inc10_of_ge hd])

end Faults

/-! ## Repeated advances -/

/-- As many advances as a list is long add its length modulo 10 (R69). -/
theorem foldlM_inc10 {α : Type} (l : List α) {d : Digit} (h : d.toNat ≤ 9) :
    l.foldlM (fun e _ => inc10 e) d = .ok (BitVec.ofNat 4 ((d.toNat + l.length) % 10)) := by
  induction l generalizing d with
  | nil => simp [Nat.mod_eq_of_lt (Nat.lt_succ_of_le h), pure, Except.pure]
  | cons x l ih =>
    have hn := inc10_le (inc10_of_le h)
    have hsum : (BitVec.ofNat 4 ((d.toNat + 1) % 10)).toNat = (d.toNat + 1) % 10 := by
      rw [BitVec.toNat_ofNat]; omega
    rw [List.foldlM_cons, inc10_of_le h]
    refine (ih hn).trans ?_
    rw [hsum, List.length_cons, Nat.mod_add_mod, Nat.add_assoc, Nat.add_comm 1]

/-! ## The statements -/

/-- Settles O26: the two clauses of `inc10`, and ten advances add 10 modulo 10. -/
theorem incTenIsModTen : Obligations.IncTenIsModTen := by
  refine ⟨fun d => inc10_of_le, fun d => inc10_of_ge, fun d h => ?_⟩
  rw [foldlM_inc10 _ h, List.length_range, Nat.add_mod_right, Nat.mod_eq_of_lt (Nat.lt_succ_of_le h),
    BitVec.ofNat_toNat, BitVec.setWidth_eq]

/-- Settles O18: the row samples 0 and ends the iteration. -/
theorem idleLowSample : Obligations.IdleLowSample := by
  intro s r hb hr
  refine ⟨fun p w d => rfl, fun hi hs hw hd => ?_,
    fun p w d hw => (exec_tIdleLow_eq_next hr).mpr ⟨hb, hw, rfl⟩, exec_tIdleLow_of_gt hb hr⟩
  rw [fetch_of_inRange hb hr (by rw [hi]) hw hd, hs, hi]
  rfl

/-- Settles O19: the row samples 1 and ends the iteration. -/
theorem idleHeldSample : Obligations.IdleHeldSample := by
  intro s r hb hr
  refine ⟨fun w d => rfl, fun hi hs hp hw hd => ?_,
    fun w d hw => (exec_tIdleHeld_eq_next hr).mpr ⟨hb, hw, rfl⟩, exec_tIdleHeld_of_gt hb hr⟩
  rw [fetch_of_inRange hb hr (by rw [hi]) hw hd, hs, hi, hp]
  rfl

/-- Settles O20: the row itself checks no counter. -/
theorem idleEdgeSample : Obligations.IdleEdgeSample := by
  intro s r hb hr
  refine ⟨fun w d => rfl, fun hi hs hp hw hd => ?_, fun w d => (exec_tIdleEdge_eq_next hr).mpr ⟨hb, rfl⟩⟩
  rw [fetch_of_inRange hb hr (by rw [hi]) hw hd, hs, hi, hp]
  rfl

/-- Settles O21: below `N_DEB - 1` the bit `dlast` is 0, which selects the row whatever the button is. -/
theorem confirmationWaits : Obligations.ConfirmationWaits := by
  intro s r hb hr
  refine ⟨fun b p w => rfl, fun hi hs hw hd => ?_,
    fun b p w hd => (exec_tConfWait_eq_next hr).mpr ⟨hb, hd, rfl⟩, exec_tConfWait_of_gt hb hr⟩
  rw [fetch_of_inRange hb hr hi hw hd.le, hs, dlast_of_lt hd]
  rfl

/-- Settles O22: at `N_DEB - 1` the bit `dlast` is 1, and the button is asserted. -/
theorem confirmationPasses : Obligations.ConfirmationPasses := by
  intro s r hb hr
  refine ⟨fun p w => rfl, fun hi hs hw hd => ?_,
    fun p w hd => (exec_tConfPass_eq_next hr).mpr ⟨hb, hd, rfl⟩, exec_tConfPass_of_gt hb hr⟩
  rw [fetch_of_inRange hb hr (by rw [hi]) hw hd.le, hs, hi, dlast_eq_true_iff.mpr hd]
  rfl

/-- Settles O23: at `N_DEB - 1` the bit `dlast` is 1, and the button is not asserted; the faults are those of the check
of both counters. -/
theorem confirmationFindsNoise : Obligations.ConfirmationFindsNoise := by
  intro s r hb hr
  have stop (p w : Bool) {f : Fault} (h : checkCounters s.build r = .error f) : exec (.tConfNoise p w) s = .fault f :=
    exec_tConfNoise_of_error hb hr p w h
  refine ⟨fun p w => rfl, fun hi hs hw hd => ?_,
    fun p w hd hw => (exec_tConfNoise_eq_next hr).mpr ⟨hb, ⟨hw, hd⟩, rfl⟩,
    fun p w hd hw => stop p w (checkCounters_of_deb hw hd), fun p w _ hw => stop p w (checkCounters_of_wait hw),
    fun p w _ hw => ⟨_, _, stop p w (checkCounters_of_wait hw)⟩⟩
  rw [fetch_of_inRange hb hr (by rw [hi]) hw hd.le, hs, hi, dlast_eq_true_iff.mpr hd]
  rfl

/-- Settles O24: the row advances the digit and ends the iteration, in the last iteration or before it. -/
theorem earlyAdvance : Obligations.EarlyAdvance := by
  intro s r hb hr
  refine ⟨fun b p w d => rfl, fun hi hs hw hd => ?_, fun b p w d hw hn => ?_, exec_tAdvEarly_of_gt hb hr,
    exec_tAdvEarly_of_ge hb hr⟩
  · rw [fetch_of_inRange hb hr hi hw hd, hs]
    rfl
  · refine (exec_tAdvEarly_eq_next hr).mpr ⟨hb, hw, _, inc10_of_le hn, ?_⟩
    cases w <;> rfl

/-- Settles O25: the row advances the digit and checks no counter. -/
theorem periodicAdvance : Obligations.PeriodicAdvance := by
  intro s r hb hr
  refine ⟨fun b p w d => rfl, fun hi hs hw hd => ?_,
    fun b p w d hn => (exec_tAdvPeriod_eq_next hr).mpr ⟨hb, _, inc10_of_le hn, rfl⟩, exec_tAdvPeriod_of_ge hb hr⟩
  rw [fetch_of_inRange hb hr hi hw hd, hs]
  rfl

end Sys2Proof.Machine
end

section
/-! SUPPORT. The two rows of the display on the domain, the bits of a merged port, the cycle that starts with the
outputs cleared, and the statements about the display output that follow from them. -/

namespace Sys2Proof.Machine

/-! ## The rows -/

section Rows

variable {s : State} {r : Regs} {p : Pattern} (hb : s.build.wf = true) (hr : s.regs = some r)
  (hp : romLookup r.digit = some p)
include hb hr hp

theorem exec_render_of_some : exec .render s = .next (s.setSegN (driveValue p)) := by
  rw [exec_render, withDrive_of_le hb hr hp]

theorem exec_portMerge_of_some :
    exec .portMerge s = .next (s.setPortOut (mergePort s.build.portW (driveValue p) s.otherNow)) := by
  rw [exec_portMerge, withDrive_of_le hb hr hp]

end Rows

/-- Every digit lights a segment, and only 8 lights all of them: the corner cases of R86. -/
theorem driveValue_corners {d : Digit} {p : Pattern} (h : romLookup d = some p) :
    driveValue p ≠ 0x7F#7 ∧ (driveValue p = 0x00#7 ↔ d = 8#4) :=
  (by decide : ∀ d : Digit, ∀ p ∈ romLookup d,
    driveValue p ≠ 0x7F#7 ∧ (driveValue p = 0x00#7 ↔ d = 8#4)) d p h

/-! ## The bits of the merged port -/

/-- The slice form takes bits 6 to 0 from the drive value and the bits above from the other value (R89). -/
theorem getLsbD_mergeSlice {n : Nat} (v : Pattern) (x : BitVec n) {k : Nat} (hk : k < n) :
    (mergeSlice v x).getLsbD k = if k < 7 then v.getLsbD k else x.getLsbD k := by
  rw [mergeSlice, BitVec.getLsbD_setWidth, BitVec.getLsbD_append]
  rcases Nat.lt_or_ge k 7 with h | h
  · simp [h, hk]
  · have habove : k - 7 < n - 7 := by omega
    simp [h.not_gt, hk, habove, Nat.add_sub_cancel' h]

/-- The mask of the masked form clears the bits of the drive value and no others (R89). -/
theorem getLsbD_mergeMasked {n : Nat} (v : Pattern) (x : BitVec n) {k : Nat} (hk : k < n) :
    (mergeMasked v x).getLsbD k = if k < 7 then v.getLsbD k else x.getLsbD k := by
  have hmask : (0x7F#7).getLsbD k = decide (k < 7) := BitVec.getLsbD_allOnes
  simp only [mergeMasked, BitVec.getLsbD_or, BitVec.getLsbD_and, BitVec.getLsbD_not, BitVec.getLsbD_setWidth, hmask, hk]
  rcases Nat.lt_or_ge k 7 with h | h
  · simp [h]
  · simp [h.not_gt, BitVec.getLsbD_of_ge v k h]

/-- The two forms of the merge agree bit by bit (R89, R42). -/
theorem mergeSlice_eq_mergeMasked {n : Nat} (v : Pattern) (x : BitVec n) : mergeSlice v x = mergeMasked v x :=
  BitVec.eq_of_getLsbD_eq fun _ hk => (getLsbD_mergeSlice v x hk).trans (getLsbD_mergeMasked v x hk).symm

theorem testBit_mergePort {n k : Nat} (v : Pattern) (o : Nat) (hk : k < n) :
    (mergePort n v o).testBit k = if k < 7 then v.getLsbD k else o.testBit k := by
  rw [mergePort, BitVec.testBit_toNat, getLsbD_mergeSlice v _ hk, BitVec.getLsbD_ofNat]
  simp [hk]

/-- A port of 7 bits has no bit for the other logic (R89). -/
theorem mergePort_seven (v : Pattern) (o : Nat) : mergePort 7 v o = v.toNat :=
  congrArg BitVec.toNat <| BitVec.eq_of_getLsbD_eq fun _ hk =>
    (getLsbD_mergeSlice v _ hk).trans (if_pos hk)

/-! ## The outputs are not read -/

/-- The state with no value on any output: what is left of it is all that a cycle may read (R90). -/
def State.clearOutputs (s : State) : State := { s with seg := none, segN := none, portOut := none }

@[simp] theorem State.clearOutputs_build (s : State) : s.clearOutputs.build = s.build := rfl

section Bind

variable {σ τ : Type} {k : σ → Host.Outcome τ Fault Refusal}

theorem andThen_onBuild_clearOutputs (s : State) {o o' : Host.Outcome σ Fault Refusal}
    (h : andThen o k = andThen o' k) : andThen (onBuild s.clearOutputs o) k = andThen (onBuild s o') k := by
  change andThen (onBuild s o) k = _
  unfold onBuild
  split
  · exact h
  · rfl

theorem andThen_withRegs_clearOutputs (s : State) (n : RegName) {g g' : Regs → Host.Outcome σ Fault Refusal}
    (h : ∀ r, andThen (g r) k = andThen (g' r) k) :
    andThen (withRegs s.clearOutputs n g) k = andThen (withRegs s n g') k := by
  change andThen (withRegs s n g) k = _
  cases hr : s.regs with
  | none => simp only [withRegs_of_none hr, andThen_fault]
  | some r => simp only [withRegs_of_some hr, h]

end Bind

section Rows

variable {τ : Type} {k : State → Host.Outcome τ Fault Refusal}

theorem andThen_withDrive_clearOutputs (s : State) {g g' : Pattern → Out}
    (h : ∀ v, andThen (g v) k = andThen (g' v) k) :
    andThen (withDrive s.clearOutputs g) k = andThen (withDrive s g') k := by
  refine andThen_onBuild_clearOutputs s (andThen_withRegs_clearOutputs s .digit fun r => ?_)
  cases romRead r.digit with
  | ok p => exact h (driveValue p)
  | error f => rfl

variable (hk : ∀ t : State, k t.clearOutputs = k t)
include hk

/-- What follows a row cannot tell two states apart that differ in their outputs only. -/
theorem eq_of_clearOutputs_eq {t u : State} (h : t.clearOutputs = u.clearOutputs) : k t = k u := by
  rw [← hk t, h, hk u]

theorem andThen_transition_clearOutputs (s : State) (f : Build → Regs → Except Fault Regs) :
    andThen (transition s.clearOutputs f) k = andThen (transition s f) k := by
  refine andThen_onBuild_clearOutputs s (andThen_withRegs_clearOutputs s .state fun r => ?_)
  simp only [State.clearOutputs_build]
  cases f s.build r with
  | ok r' => exact hk (s.setRegs r')
  | error e => rfl

theorem andThen_romRow_clearOutputs (d : Digit) (s : State) :
    andThen (romRow d s.clearOutputs) k = andThen (romRow d s) k := by
  refine andThen_onBuild_clearOutputs s ?_
  cases romRead d with
  | ok p => exact eq_of_clearOutputs_eq hk (u := s.setSeg p) rfl
  | error f => rfl

/-- No row reads an output: what follows a row, if it reads none either, cannot tell whether the outputs were cleared
before the row (R90). -/
theorem andThen_exec_clearOutputs (i : Instr) (s : State) :
    andThen (exec i s.clearOutputs) k = andThen (exec i s) k := by
  cases execForm i with
  | reset c b p w d => exact andThen_onBuild_clearOutputs s (hk (s.setRegs Regs.reset))
  | transition f c hc hf => rw [hf, hf, andThen_transition_clearOutputs hk]
  | lookup d => rw [exec_decodeRom, exec_decodeRom, andThen_romRow_clearOutputs hk]
  | render =>
    rw [exec_render, exec_render]
    exact andThen_withDrive_clearOutputs s fun v => eq_of_clearOutputs_eq (t := s.clearOutputs.setSegN v) hk rfl
  | portMerge =>
    rw [exec_portMerge, exec_portMerge]
    exact andThen_withDrive_clearOutputs s fun v => eq_of_clearOutputs_eq (t := s.clearOutputs.setPortOut _) hk rfl

end Rows

theorem settle_of_none {s : State} (hr : s.regs = none) : settle s = .fault (.uninit .digit) := by
  rw [settle, withRegs_of_none hr]

theorem settle_of_not_wf {s : State} {r : Regs} (hb : s.build.wf = false) (hr : s.regs = some r) :
    settle s = .refused .illegalBuild := by
  rw [settle, withRegs_of_some hr, exec_decodeRom, romRow, onBuild_of_not_wf hb, andThen_refused]

/-- Settling writes all three outputs, and reads none (R87, R90). -/
theorem settle_clearOutputs (s : State) : settle s.clearOutputs = settle s := by
  cases hr : s.regs with
  | none => rw [settle_of_none hr, settle_of_none (s := s.clearOutputs) hr]
  | some r =>
    cases hb : s.build.wf with
    | false => rw [settle_of_not_wf hb hr, settle_of_not_wf (s := s.clearOutputs) hb hr]
    | true =>
      cases hp : romLookup r.digit with
      | none =>
        have hd := romLookup_eq_none.mp hp
        rw [settle_of_ge hb hr hd, settle_of_ge (s := s.clearOutputs) hb hr hd]
      | some p =>
        rw [settle_of_some hb hr hp, settle_of_some (s := s.clearOutputs) hb hr hp]
        rfl

/-- A cycle does not depend on the outputs it starts with: its row is selected without them, runs without them, and
they are written anew when it ends (R90). -/
theorem step_clearOutputs (s : State) : step s.clearOutputs = step s := by
  refine congrArg (andThen (fetch s)) (funext fun i => ?_)
  exact andThen_exec_clearOutputs (fun t => settle_clearOutputs t.nextCycle) i s

/-! ## The statements -/

/-- Settles O30: on the domain the row drives the drive value of the pattern, and outside it and before the first reset
reading the drive value faults. -/
theorem renderDrivesTheComplement : Obligations.RenderDrivesTheComplement := by
  refine ⟨fun s r hb hr hd => ?_, fun s r hb hr hd => ?_, fun s hb hr => ?_,
    fun d p h => driveValue_corners (romRead_eq_ok.mp h)⟩
  · obtain ⟨p, hp⟩ := romLookup_of_le hd
    exact ⟨p, romRead_of_some hp, exec_render_of_some hb hr hp⟩
  · rw [exec_render, withDrive_of_ge hb hr hd]
  · rw [exec_render, withDrive_of_none hb hr]

/-- Settles O31: the port is the slice form of the merge, whose bits are those of the drive value and, above them, of
`other`. -/
theorem portMergeComposesThePort : Obligations.PortMergeComposesThePort := by
  intro s r hb hr hd
  obtain ⟨p, hp⟩ := romLookup_of_le hd
  obtain ⟨-, -, -, -, hport⟩ := (Build.wf_iff _).mp hb
  refine ⟨p, _, romRead_of_some hp, exec_portMerge_of_some hb hr hp, BitVec.isLt _, fun k hk => ?_,
    fun k hk hkn => ?_, congrArg BitVec.toNat (mergeSlice_eq_mergeMasked _ _), fun h7 => ?_⟩
  · exact (testBit_mergePort _ _ (hk.trans_le hport)).trans (if_pos hk)
  · exact (testBit_mergePort _ _ hkn).trans (if_neg hk.not_gt)
  · rw [h7]
    exact mergePort_seven _ _

/-- Settles O35: both states are the same one with the outputs cleared. -/
theorem outputsAreNeverReadBack : Obligations.OutputsAreNeverReadBack := by
  intro s a b c
  exact (step_clearOutputs { s with seg := a, segN := b, portOut := c }).symm.trans (step_clearOutputs s)

end Sys2Proof.Machine
end

section
/-! SUPPORT. What ends a cycle early: the refusal of an illegal build, row by row, a fault of the transition and a fault
of the outputs, and the statements about the order of the faults that follow from them. -/

namespace Sys2Proof.Machine

/-! ## An illegal build -/

section IllegalBuild

variable {s : State} (hb : s.build.wf = false)
include hb

theorem romRow_of_not_wf (d : Digit) : romRow d s = .refused .illegalBuild := onBuild_of_not_wf hb _

theorem withDrive_of_not_wf (k : Pattern → Out) : withDrive s k = .refused .illegalBuild := onBuild_of_not_wf hb _

/-- Every row is refused in an illegal build (R105). -/
theorem exec_of_not_wf (i : Instr) : exec i s = .refused .illegalBuild := by
  cases execForm i with
  | reset c b p w d => rw [exec_reset, onBuild_of_not_wf hb]
  | transition f c _ hf => rw [hf, transition_of_not_wf hb]
  | lookup d => rw [exec_decodeRom, romRow_of_not_wf hb]
  | render => rw [exec_render, withDrive_of_not_wf hb]
  | portMerge => rw [exec_portMerge, withDrive_of_not_wf hb]

/-- Every cycle is refused in an illegal build: the decoder does not start (R105). -/
theorem step_of_not_wf : step s = .refused .illegalBuild := by
  rw [step, fetch_of_not_wf hb, andThen_refused]

end IllegalBuild

/-! ## A fault after the row is selected -/

section Faults

variable {s : State} {i : Instr} (hi : fetch s = .next i)
include hi

/-- A fault of the row is the fault of the cycle (R94). -/
theorem step_of_exec_fault {f : Fault} (hx : exec i s = .fault f) : step s = .fault f := by
  rw [step, hi, andThen_next, hx, andThen_fault]

/-- Where the row of a cycle goes on, the build it leaves is legal. -/
theorem wf_of_fetch_of_exec {u : State} (hx : exec i s = .next u) : u.build.wf = true := by
  obtain ⟨-, ⟨-, -, rfl⟩ | ⟨r, -, -, rfl⟩⟩ := fetch_eq_next.mp hi
  · obtain ⟨hb, rfl⟩ := exec_reset_eq_next.mp hx
    exact hb
  · obtain ⟨hb, _, rfl⟩ := exec_selectRow_eq_setRegs hx
    exact hb

/-- A digit out of domain that the row leaves is the fault of the cycle, after the transition (R95). -/
theorem step_of_exec_of_ge {u : State} {r : Regs} (hx : exec i s = .next u) (hr : u.regs = some r)
    (hd : 10 ≤ r.digit.toNat) : step s = .fault (.romDomain r.digit) := by
  have hb : u.nextCycle.build.wf = true := by simpa using wf_of_fetch_of_exec hi hx
  have hsettle : settle u.nextCycle = .fault (.romDomain r.digit) := settle_of_ge hb hr hd
  rw [step, hi, andThen_next, hx, andThen_next, hsettle]

end Faults

/-- With the counters in range an advance of a digit out of domain is the fault of the cycle, whatever `btn` is (R78,
R79, R95). -/
theorem step_of_advance_of_ge {s : State} {r : Regs} (hb : s.build.wf = true) (hr : s.regs = some r)
    (hi : s.stimNow.rst = false) (hw : r.wcnt ≤ s.build.nWait - 1) (hc : r.dcnt ≤ s.build.nDeb - 1)
    (hs : r.state = .advanceEarly ∨ r.state = .advancePeriod) (hd : 10 ≤ r.digit.toNat) :
    step s = .fault (.digitDomain r.digit) := by
  have hrow := fetch_of_inRange hb hr hi hw hc
  obtain hs | hs := hs <;> rw [hs] at hrow
  · exact step_of_exec_fault hrow (exec_tAdvEarly_of_ge hb hr _ _ _ _ hw hd)
  · exact step_of_exec_fault hrow (exec_tAdvPeriod_of_ge hb hr _ _ _ _ hd)

/-! ## The statements -/

/-- Settles O28: the faults of the decoder end the cycle before the row runs, those of the row before the outputs
settle. -/
theorem faultsAreRecordedInOrder : Obligations.FaultsAreRecordedInOrder := by
  intro s hb
  have decoder {r : Regs} {f : Fault} (hr : s.regs = some r) (hi : s.stimNow.rst = false)
      (h : checkCounters s.build r = .error f) : step s = .fault f :=
    step_of_fetch_fault (fetch_of_error hb hr hi h)
  exact ⟨fun hr hi => ⟨_, step_of_fetch_fault (fetch_of_none_noRst hb hr hi)⟩,
    fun r hr hi hw _ => decoder hr hi (checkCounters_of_wait hw),
    fun r hr hi hw hd => decoder hr hi (checkCounters_of_deb hw hd),
    fun r hr hi hw _ => ⟨_, _, decoder hr hi (checkCounters_of_wait hw)⟩,
    fun r => step_of_advance_of_ge hb,
    fun i u r hi hx => step_of_exec_of_ge hi hx,
    fun hi => ⟨_, step_of_rst hb hi⟩⟩

/-- Settles O29: the constraints are those of a legal build, and without one neither the decoder nor a row runs. -/
theorem illegalBuildsAreRefused : Obligations.IllegalBuildsAreRefused := by
  intro s h
  have hb : s.build.wf = false := Bool.eq_false_iff.mpr fun hwf => h ((Build.wf_iff _).mp hwf)
  exact ⟨step_of_not_wf hb, exec_of_not_wf hb⟩

end Sys2Proof.Machine
end

section
/-! SUPPORT. A cycle in terms of the source's loop: with `rst` = 0 the selected row leaves the registers that the loop
computes, so a cycle that goes on is a reset or a cycle of the loop, with the outputs settled on the new digit. -/

namespace Sys2Proof.Machine

/-! ## The loop -/

@[simp] theorem closeIteration_digit (b : Build) (r : Regs) : (closeIteration b r).digit = r.digit := by
  unfold closeIteration; split <;> rfl

@[simp] theorem closeIteration_prev (b : Build) (r : Regs) : (closeIteration b r).prev = r.prev := by
  unfold closeIteration; split <;> rfl

/-- The end of an iteration leads to the next sample or to the periodic advance (R70). -/
theorem closeIteration_state (b : Build) (r : Regs) :
    (closeIteration b r).state = .idle ∨ (closeIteration b r).state = .advancePeriod := by
  unfold closeIteration
  split
  · exact .inl rfl
  · exact .inr rfl

theorem closeIteration_phase {b : Build} {r : Regs} (hw : r.wcnt ≤ b.nWait - 1) : (closeIteration b r).Phase b := by
  by_cases h : r.wcnt + 1 < b.nWait
  · rw [closeIteration_of_lt h]
    exact ⟨by simp, by simp⟩
  · rw [closeIteration_of_last h]
    exact ⟨by simp, fun _ => by simp only; omega⟩

/-- An edge sets `prev`, and no cycle of the edge check writes it (R70, R74, R76). -/
theorem loopStep_phase {b : Build} {r : Regs} (btn : Bool) (hw : r.wcnt ≤ b.nWait - 1) (h : r.Phase b) :
    (loopStep b btn r).Phase b := by
  obtain ⟨hprev, hwcnt⟩ := h
  cases hs : r.state with
  | idle =>
    cases btn
    · rw [loopStep_low hs]
      exact closeIteration_phase hw
    · cases hp : r.prev
      · rw [loopStep_edge hs hp]
        exact ⟨fun _ => rfl, by simp⟩
      · rw [loopStep_held hs hp]
        exact closeIteration_phase hw
  | confirming =>
    have hp := hprev (.inl hs)
    by_cases hd : r.dcnt + 1 < b.nDeb
    · rw [loopStep_wait btn hs hd]
      exact ⟨fun _ => hp, hwcnt⟩
    · cases btn
      · rw [loopStep_noise hs hd]
        exact closeIteration_phase hw
      · rw [loopStep_pass hs hd]
        exact ⟨fun _ => hp, by simp⟩
  | advanceEarly =>
    rw [loopStep_early btn hs]
    exact closeIteration_phase hw
  | advancePeriod =>
    rw [loopStep_period btn hs]
    exact ⟨by simp, by simp⟩

/-- The two states in which a cycle advances the digit (R78, R79). -/
abbrev Regs.Advances (r : Regs) : Prop := r.state = .advanceEarly ∨ r.state = .advancePeriod

/-- The advance states advance the digit (R78, R79). -/
theorem loopStep_digit_of_advances {r : Regs} (b : Build) (btn : Bool) (h : r.Advances) :
    (loopStep b btn r).digit = bump r.digit := by
  obtain hs | hs := h
  · rw [loopStep_early btn hs, closeIteration_digit]
  · rw [loopStep_period btn hs]

/-- The other states keep the digit (R15). -/
theorem loopStep_digit_of_not_advances {r : Regs} (b : Build) (btn : Bool) (h : ¬ r.Advances) :
    (loopStep b btn r).digit = r.digit := by
  cases hs : r.state with
  | idle =>
    cases btn
    · rw [loopStep_low hs, closeIteration_digit]
    · cases hp : r.prev
      · rw [loopStep_edge hs hp]
      · rw [loopStep_held hs hp, closeIteration_digit]
  | confirming =>
    by_cases hd : r.dcnt + 1 < b.nDeb
    · rw [loopStep_wait btn hs hd]
    · cases btn
      · rw [loopStep_noise hs hd, closeIteration_digit]
      · rw [loopStep_pass hs hd]
  | advanceEarly => exact absurd (.inl hs) h
  | advancePeriod => exact absurd (.inr hs) h

theorem loopStep_digit_le {r : Regs} (b : Build) (btn : Bool) (h : r.digit.toNat ≤ 9) :
    (loopStep b btn r).digit.toNat ≤ 9 := by
  by_cases ha : r.Advances
  · rw [loopStep_digit_of_advances b btn ha]
    exact bump_le _
  · rwa [loopStep_digit_of_not_advances b btn ha]

/-! ## The registers after a cycle -/

/-- In the last cycle of the delay, and only there, `dlast` is 1 (R46). -/
theorem dlast_of_not_lt {b : Build} {r : Regs} (h : r.dcnt ≤ b.nDeb - 1) (hn : ¬ r.dcnt + 1 < b.nDeb) :
    dlast b r = true := dlast_eq_true_iff.mpr (by omega)

/-- The fault of a cycle whose digit is out of domain (R95). -/
def Regs.digitFault (r : Regs) : Fault := if r.Advances then .digitDomain r.digit else .romDomain r.digit

section Cycle

variable {s : State} {r : Regs} (hb : s.build.wf = true) (hr : s.regs = some r)
  (hw : r.wcnt ≤ s.build.nWait - 1) (hc : r.dcnt ≤ s.build.nDeb - 1)
include hb hr hw hc

/-- The row that the condition word selects does to the registers what the loop does (R72 to R79); only the advances
look at the digit. -/
theorem exec_selectRow_eq_loopStep (btn : Bool) (hd : r.Advances → r.digit.toNat ≤ 9) :
    exec (selectRow false r.state btn r.prev (wlast s.build r) (dlast s.build r)) s =
      .next (s.setRegs (loopStep s.build btn r)) := by
  have hn : 1 ≤ s.build.nWait := ((Build.wf_iff _).mp hb).1
  have close (q : Regs) (hq : q.wcnt = r.wcnt) : closeIteration s.build q = countIter (wlast s.build r) q := by
    rw [← countIter_eq_closeIteration hn (hq ▸ hw), wlast, hq]
  cases hs : r.state with
  | idle =>
    cases btn
    · rw [loopStep_low hs, close { r with prev := false } rfl]
      exact (exec_tIdleLow_eq_next hr).mpr ⟨hb, hw, rfl⟩
    · cases hp : r.prev
      · rw [loopStep_edge hs hp]
        exact (exec_tIdleEdge_eq_next hr).mpr ⟨hb, rfl⟩
      · rw [loopStep_held hs hp, close { r with prev := true } rfl]
        exact (exec_tIdleHeld_eq_next hr).mpr ⟨hb, hw, rfl⟩
  | confirming =>
    by_cases hlast : r.dcnt + 1 < s.build.nDeb
    · rw [dlast_of_lt (by omega), loopStep_wait btn hs hlast]
      exact (exec_tConfWait_eq_next hr).mpr ⟨hb, hc, by simp [hs]⟩
    · rw [dlast_of_not_lt hc hlast]
      cases btn
      · rw [loopStep_noise hs hlast, close { r with dcnt := 0 } rfl]
        exact (exec_tConfNoise_eq_next hr).mpr ⟨hb, ⟨hw, hc⟩, by simp [hs]⟩
      · rw [loopStep_pass hs hlast]
        exact (exec_tConfPass_eq_next hr).mpr ⟨hb, hc, rfl⟩
  | advanceEarly =>
    rw [loopStep_early btn hs, close { r with digit := bump r.digit } rfl]
    refine (exec_tAdvEarly_eq_next hr).mpr ⟨hb, hw, bump r.digit, inc10_of_le (hd (.inl hs)), ?_⟩
    cases wlast s.build r <;> rfl
  | advancePeriod =>
    rw [loopStep_period btn hs]
    exact (exec_tAdvPeriod_eq_next hr).mpr ⟨hb, bump r.digit, inc10_of_le (hd (.inr hs)), rfl⟩

variable (hi : s.stimNow.rst = false)
include hi

/-- A cycle with `rst` = 0 that starts in range is a cycle of the loop, after which the outputs settle on the new
digit. -/
theorem step_eq_loopStep {p : Pattern} (hd : r.digit.toNat ≤ 9)
    (hp : romLookup (loopStep s.build s.stimNow.btn r).digit = some p) :
    step s = .next ((s.setRegs (loopStep s.build s.stimNow.btn r)).nextCycle.display p) :=
  step_of_exec hb (fetch_of_inRange hb hr hi hw hc)
    (exec_selectRow_eq_loopStep hb hr hw hc s.stimNow.btn fun _ => hd) hp

/-- A digit out of domain stops the cycle: in the transition where it advances the digit, else when the outputs settle
(R95). -/
theorem step_of_digit_ge (hd : 10 ≤ r.digit.toNat) : step s = .fault r.digitFault := by
  by_cases ha : r.Advances
  · rw [Regs.digitFault, if_pos ha]
    exact step_of_advance_of_ge hb hr hi hw hc ha hd
  · have hkeep := loopStep_digit_of_not_advances s.build s.stimNow.btn ha
    rw [Regs.digitFault, if_neg ha, ← hkeep]
    exact step_of_exec_of_ge (fetch_of_inRange hb hr hi hw hc)
      (exec_selectRow_eq_loopStep hb hr hw hc _ fun h => absurd h ha) rfl (hkeep ▸ hd)

end Cycle

/-- The registers that a cycle which goes on can leave: the reset values, or those of the loop from counters and a
digit in range. -/
def State.CyclesTo (s : State) (r' : Regs) : Prop :=
  (s.stimNow.rst = true ∧ r' = Regs.reset) ∨
    (s.stimNow.rst = false ∧ ∃ r, s.regs = some r ∧
      (r.wcnt ≤ s.build.nWait - 1 ∧ r.dcnt ≤ s.build.nDeb - 1 ∧ r.digit.toNat ≤ 9) ∧
      r' = loopStep s.build s.stimNow.btn r)

/-- All that a cycle can do when it goes on (R68, R87). -/
theorem step_eq_next_iff {s t : State} :
    step s = .next t ↔ s.build.wf = true ∧ ∃ r' p, s.CyclesTo r' ∧ romLookup r'.digit = some p ∧
      t = (s.setRegs r').nextCycle.display p := by
  constructor
  · intro h
    obtain ⟨i, u, hi, -, -⟩ := step_eq_next.mp h
    obtain ⟨hb, hrow⟩ := fetch_eq_next.mp hi
    refine ⟨hb, ?_⟩
    cases hrst : s.stimNow.rst with
    | true =>
      cases (step_of_rst hb hrst).symm.trans h
      exact ⟨_, _, .inl ⟨hrst, rfl⟩, rfl, rfl⟩
    | false =>
      obtain ⟨-, hn, -⟩ | ⟨r, hr, hcnt, -⟩ := hrow
      · simp [hrst] at hn
      · obtain ⟨hw, hc⟩ := hcnt.resolve_left (by simp [hrst])
        rcases Nat.lt_or_ge 9 r.digit.toNat with hd | hd
        · cases (step_of_digit_ge hb hr hw hc hrst hd).symm.trans h
        · obtain ⟨p, hp⟩ := romLookup_of_le (loopStep_digit_le s.build s.stimNow.btn hd)
          cases (step_eq_loopStep hb hr hw hc hrst hd hp).symm.trans h
          exact ⟨_, p, .inr ⟨hrst, r, hr, ⟨hw, hc, hd⟩, rfl⟩, hp, rfl⟩
  · rintro ⟨hb, r', p, ⟨hrst, rfl⟩ | ⟨hrst, r, hr, ⟨hw, hc, hd⟩, rfl⟩, hp, rfl⟩
    · cases (rfl : romLookup Regs.reset.digit = some 0x3F#7).symm.trans hp
      exact step_of_rst hb hrst
    · exact step_eq_loopStep hb hr hw hc hrst hd hp

/-! ## The invariants -/

/-- The settled outputs show the digit (R86, R87, R89). -/
theorem State.display_shows (s : State) {d : Digit} {p : Pattern} (hp : romLookup d = some p) :
    (s.display p).Shows d := by
  simp [State.Shows, hp]

theorem Regs.reset_inRange (b : Build) : Regs.reset.InRange b := by
  simp [Regs.InRange, Regs.reset]

theorem Regs.reset_phase (b : Build) : Regs.reset.Phase b := by
  simp [Regs.Phase, Regs.reset]

/-- Registers in range are those that the loop leaves, or a reset (R29). -/
theorem State.CyclesTo.inRange {s : State} {r' : Regs} (h : s.CyclesTo r') (hin : ∀ r ∈ s.regs, r.InRange s.build) :
    r'.InRange s.build := by
  obtain ⟨-, rfl⟩ | ⟨-, r, hr, -, rfl⟩ := h
  · exact Regs.reset_inRange _
  · exact loopStep_inRange _ (hin r hr)

theorem State.CyclesTo.phase {s : State} {r' : Regs} (h : s.CyclesTo r') (hph : ∀ r ∈ s.regs, r.Phase s.build) :
    r'.Phase s.build := by
  obtain ⟨-, rfl⟩ | ⟨-, r, hr, ⟨hw, -, -⟩, rfl⟩ := h
  · exact Regs.reset_phase _
  · exact loopStep_phase _ hw (hph r hr)

/-- A block in the invariant whose registers hold values goes on, whatever the inputs are (R93). -/
theorem exists_step_of_inv {s : State} (h : s.Inv) (hn : s.regs ≠ none) : ∃ t, step s = .next t ∧ t.regs ≠ none := by
  obtain ⟨hb, hregs, -⟩ := h
  obtain ⟨r, hr⟩ := Option.ne_none_iff_exists'.mp hn
  cases hrst : s.stimNow.rst with
  | true => exact ⟨_, step_of_rst hb hrst, nofun⟩
  | false =>
    obtain ⟨⟨hd, hw, hc, -⟩, -⟩ := hregs r hr
    obtain ⟨p, hp⟩ := romLookup_of_le (loopStep_digit_le s.build s.stimNow.btn hd)
    exact ⟨_, step_eq_loopStep hb hr hw hc hrst hd hp, nofun⟩

/-- A length's least width, or a wider one, is a legal width for it (R7). -/
theorem legal_of_widthFor_le {n w : Nat} (h : widthFor n ≤ w) : n ≤ 2 ^ w ∧ 1 ≤ w := by
  obtain ⟨hn, h1⟩ := widthFor_spec n
  exact ⟨hn.trans (Nat.pow_le_pow_right (by decide) h), h1.trans h⟩

theorem Config.build_wf : Config.build.wf = true :=
  (Build.wf_iff _).mpr ⟨Nat.le_add_left 1 _, Nat.le_add_left 1 _, legal_of_widthFor_le (Nat.le_add_right _ _),
    legal_of_widthFor_le (Nat.le_add_right _ _), Nat.le_add_right 7 _⟩

/-! ## The statements -/

/-- Settles O36: the registers are those of a reset or of the loop, which keeps them in range, and the outputs settle on
their digit. -/
theorem stepKeepsTheInvariant : Obligations.StepKeepsTheInvariant := by
  rintro s t ⟨-, hregs, -⟩ h
  obtain ⟨hb, r', p, hcyc, hp, rfl⟩ := step_eq_next_iff.mp h
  refine ⟨hb, fun q hq => ?_, nofun⟩
  cases hq
  exact ⟨hcyc.inRange fun r hr => (hregs r hr).1, State.display_shows _ hp⟩

/-- Settles O37, by induction on the number of cycles: a block in the invariant goes on, and stays in it. -/
theorem runsNeverFaultAfterReset : Obligations.RunsNeverFaultAfterReset := by
  intro n
  induction n with
  | zero => exact fun s h hn => ⟨s, rfl, h, hn⟩
  | succ n ih =>
    intro s h hn
    obtain ⟨t, ht, htn⟩ := exists_step_of_inv h hn
    rw [run_succ_of_step ht]
    exact ih t (stepKeepsTheInvariant s t h ht) htn

/-- Settles O38: neither a reset nor a cycle of the loop breaks the phase. -/
theorem edgeCheckPhaseIsKept : Obligations.EdgeCheckPhaseIsKept := by
  intro s t r r' hr hph h hr'
  obtain ⟨-, q, p, hcyc, -, rfl⟩ := step_eq_next_iff.mp h
  cases hr'
  exact hcyc.phase fun a ha => Option.some.inj (hr.symm.trans ha) ▸ hph

/-- Settles O34: the outputs settle on the pattern of the digit that the cycle leaves. -/
theorem everyStepShowsTheDigit : Obligations.EveryStepShowsTheDigit := by
  intro s t h
  obtain ⟨-, r', p, -, hp, rfl⟩ := step_eq_next_iff.mp h
  exact ⟨r', p, rfl, romRead_of_some hp, rfl⟩

/-- Settles O39: the selected row computes the registers of the loop, and the rest of the cycle writes only outputs. -/
theorem machineRefinesTheLoop : Obligations.MachineRefinesTheLoop := by
  rintro s r hb hr ⟨hd, hw, hc, -⟩ hi
  obtain ⟨p, hp⟩ := romLookup_of_le (loopStep_digit_le s.build s.stimNow.btn hd)
  exact ⟨_, step_eq_loopStep hb hr hw hc hi hd hp, rfl, rfl, rfl, rfl⟩

/-- Settles O15, from the constants of the reset state. -/
theorem resetStateHoldsTheResetValues : Obligations.ResetStateHoldsTheResetValues := ⟨rfl, rfl, rfl⟩

/-- Settles O16: the widths are at least the least legal ones, and the outputs are those of the digit 0. -/
theorem resetMeetsTheInvariant : Obligations.ResetMeetsTheInvariant := by
  refine ⟨Config.build_wf, fun r hr => ?_, nofun⟩
  cases hr
  exact ⟨Regs.reset_inRange _, rfl, rfl, rfl⟩

/-- Settles O13: `RESET` writes the registers in every legal build, without reading one. -/
theorem resetRowCompletes : Obligations.ResetRowCompletes :=
  fun _ _ _ _ _ _ hb => exec_reset_eq_next.mpr ⟨hb, rfl⟩

/-- Settles O17, by induction on the cycles: each is a reset from the state that the one before it left. -/
theorem heldResetRepeats : Obligations.HeldResetRepeats := by
  intro s xs q hb hne hrst hs
  induction xs generalizing s with
  | nil => exact absurd rfl hne
  | cons x xs ih =>
    have hx : s.stimNow.rst = true := State.stimNow_of_cons hs ▸ hrst x List.mem_cons_self
    have hstep := step_of_rst hb hx
    have htail : s.stim.tail = xs ++ q := by rw [hs]; rfl
    rw [List.length_cons, run_succ_of_step hstep]
    cases xs with
    | nil => exact ⟨_, rfl, rfl, rfl, rfl, htail⟩
    | cons y ys =>
      exact ih ((s.setRegs Regs.reset).nextCycle.display 0x3F#7) hb nofun
        (fun z hz => hrst z (List.mem_cons_of_mem x hz)) htail

/-- Settles O54: each counter is at least as wide as its length needs. -/
theorem loadedProgramIsLegal : Obligations.LoadedProgramIsLegal := by
  intro s p hb hp
  obtain ⟨-, -, -, -, hport⟩ := (Build.wf_iff _).mp hb
  obtain ⟨hwait, hdeb⟩ : 1 ≤ p.nWait ∧ 1 ≤ p.nDeb := by simpa [StimProgram.wf] using hp
  exact (Build.wf_iff _).mpr ⟨hwait, hdeb, legal_of_widthFor_le (Nat.le_max_right _ _),
    legal_of_widthFor_le (Nat.le_max_right _ _), hport⟩

end Sys2Proof.Machine
end

section
/-! SUPPORT. Runs of cycles with `rst` = 0: the machine follows the source's loop over the queued inputs, and what the
loop does over a delay, over a period and while the button is held. -/

namespace Sys2Proof.Machine

/-! ## The machine follows the loop -/

/-- A block of build `b` with the registers `r` in range, and the inputs `q` queued. -/
structure State.At (s : State) (b : Build) (r : Regs) (q : List Stim) : Prop where
  build : s.build = b
  wf : b.wf = true
  regs : s.regs = some r
  inRange : r.InRange b
  stim : s.stim = q

/-- The loop over the inputs of the cycles in turn. -/
def loopRun (b : Build) (xs : List Stim) (r : Regs) : Regs := xs.foldl (fun r x => loopStep b x.btn r) r

@[simp] theorem loopRun_nil (b : Build) (r : Regs) : loopRun b [] r = r := rfl

@[simp] theorem loopRun_cons (b : Build) (x : Stim) (xs : List Stim) (r : Regs) :
    loopRun b (x :: xs) r = loopRun b xs (loopStep b x.btn r) := rfl

theorem loopRun_append (b : Build) (xs ys : List Stim) (r : Regs) :
    loopRun b (xs ++ ys) r = loopRun b ys (loopRun b xs r) := List.foldl_append

/-- One cycle of the loop (R68). -/
theorem State.At.step {s : State} {b : Build} {r : Regs} {x : Stim} {q : List Stim} (h : s.At b r (x :: q))
    (hx : x.rst = false) : ∃ t, step s = .next t ∧ t.At b (loopStep b x.btn r) q := by
  obtain ⟨rfl, hb, hr, hin, hs⟩ := h
  have hnow := State.stimNow_of_cons hs
  obtain ⟨t, ht, hregs, hbuild, hstim, -⟩ := machineRefinesTheLoop s r hb hr hin (hnow ▸ hx)
  exact ⟨t, ht, hbuild, hb, hnow ▸ hregs, loopStep_inRange _ hin, hstim.trans (congrArg List.tail hs)⟩

/-- As many cycles of the loop as inputs, one after the other. -/
theorem State.At.run {s : State} {b : Build} {r : Regs} {xs q : List Stim} (h : s.At b r (xs ++ q))
    (hxs : ∀ x ∈ xs, x.rst = false) : ∃ t, run xs.length s = .next t ∧ t.At b (loopRun b xs r) q := by
  induction xs generalizing s r with
  | nil => exact ⟨s, rfl, h⟩
  | cons x xs ih =>
    obtain ⟨t, ht, hAt⟩ := State.At.step h (hxs x List.mem_cons_self)
    rw [List.length_cons, run_succ_of_step ht]
    exact ih hAt fun y hy => hxs y (List.mem_cons_of_mem x hy)

/-- The run of a block and one more cycle. -/
theorem run_add_one {n : Nat} {s t u : State} (ht : run n s = .next t) (hu : step t = .next u) :
    run (n + 1) s = .next u := by
  induction n generalizing s with
  | zero =>
    cases ht
    exact run_succ_of_step hu
  | succ n ih =>
    rw [run_succ] at ht ⊢
    obtain ⟨v, hv, hvt⟩ := andThen_eq_next.mp ht
    rw [hv, andThen_next]
    exact ih hvt

/-- In IDLE with `prev` = 1 a sample of 1 is read as held (R73). -/
theorem State.At.fetch_held {s : State} {b : Build} {r : Regs} {q : List Stim} (h : s.At b r (⟨false, true⟩ :: q))
    (hs : r.state = .idle) (hp : r.prev = true) : fetch s = .next (.tIdleHeld (wlast b r) (dlast b r)) := by
  obtain ⟨rfl, hb, hr, ⟨-, hw, hc, -⟩, hq⟩ := h
  have hnow := State.stimNow_of_cons hq
  rw [fetch_of_inRange hb hr (hnow ▸ rfl) hw hc, hnow, hs, hp]
  rfl

/-! ## The loop over many cycles -/

/-- The end of an iteration writes the state, whatever it was (R70). -/
theorem closeIteration_setState (b : Build) (r : Regs) (c : Fsm) :
    closeIteration b { r with state := c } = closeIteration b r := rfl

/-- A list of `n + 2` cycles, with the last two apart. -/
theorem exists_eq_append_pair {xs : List Stim} {n : Nat} (h : xs.length = n + 2) :
    ∃ mid x y, xs = mid ++ [x, y] ∧ mid.length = n := by
  obtain ⟨x, y, hxy⟩ := List.length_eq_two.mp (show (xs.drop n).length = 2 by rw [List.length_drop]; omega)
  exact ⟨xs.take n, x, y, by rw [← hxy, List.take_append_drop], by rw [List.length_take]; omega⟩

/-- Before the last cycle of the delay the loop only counts, whatever the button does (R75). -/
theorem loopRun_wait {b : Build} {r : Regs} {xs : List Stim} (hs : r.state = .confirming)
    (hd : r.dcnt + xs.length < b.nDeb) : loopRun b xs r = { r with dcnt := r.dcnt + xs.length } := by
  induction xs generalizing r with
  | nil => rfl
  | cons x xs ih =>
    rw [List.length_cons] at hd ⊢
    rw [loopRun_cons, loopStep_wait x.btn hs (by omega),
      ih (r := { r with dcnt := r.dcnt + 1 }) hs (by simp only; omega)]
    simp only [Nat.add_assoc, Nat.add_comm 1]

/-- The delay leads to the confirmation sample with `dcnt` at its last value (R75). -/
theorem loopRun_delay {b : Build} {r : Regs} {mid : List Stim} (x : Stim) (hs : r.state = .confirming) (hd : r.dcnt = 0)
    (hn : 1 ≤ b.nDeb) (hmid : mid.length = b.nDeb - 1) :
    loopRun b (mid ++ [x]) r = loopStep b x.btn { r with dcnt := b.nDeb - 1 } := by
  rw [loopRun_append, loopRun_wait hs (by omega), hd, hmid, Nat.zero_add, loopRun_cons, loopRun_nil]

/-- The inputs of an edge check: the edge, the cycles of the delay before the last, and the confirmation sample. -/
def edgeCheck (mid : List Stim) (btn : Bool) : List Stim := ⟨false, true⟩ :: (mid ++ [⟨false, btn⟩])

theorem edgeCheck_rst {mid : List Stim} (btn : Bool) (h : ∀ y ∈ mid, y.rst = false) :
    ∀ y ∈ edgeCheck mid btn, y.rst = false := by
  simp only [edgeCheck, List.mem_append, List.mem_cons, List.not_mem_nil, or_false]
  rintro y (rfl | hy | rfl)
  · rfl
  · exact h y hy
  · rfl

theorem length_edgeCheck {mid : List Stim} {n : Nat} (btn : Bool) (hn : 1 ≤ n) (hmid : mid.length = n - 1) :
    (edgeCheck mid btn).length = n + 1 := by
  simp only [edgeCheck, List.length_append, List.length_cons, List.length_nil]
  omega

/-- The edge and the delay lead to the confirmation sample (R74, R75). -/
theorem loopRun_edgeCheck {b : Build} {r : Regs} {mid : List Stim} (btn : Bool) (hs : r.state = .idle)
    (hp : r.prev = false) (hn : 1 ≤ b.nDeb) (hmid : mid.length = b.nDeb - 1) :
    loopRun b (edgeCheck mid btn) r =
      loopStep b btn { r with prev := true, dcnt := b.nDeb - 1, state := .confirming } := by
  rw [edgeCheck, loopRun_cons, loopStep_edge hs hp]
  exact loopRun_delay _ rfl rfl hn hmid

/-- A confirmed press starts the early advance (R76). -/
theorem loopRun_press {b : Build} {r : Regs} {mid : List Stim} (hs : r.state = .idle) (hp : r.prev = false)
    (hn : 1 ≤ b.nDeb) (hmid : mid.length = b.nDeb - 1) :
    loopRun b (edgeCheck mid true) r = { r with prev := true, dcnt := 0, state := .advanceEarly } :=
  (loopRun_edgeCheck true hs hp hn hmid).trans (loopStep_pass rfl (by simp only; omega))

/-- A rejected edge ends the iteration (R77). -/
theorem loopRun_noise {b : Build} {r : Regs} {mid : List Stim} (hs : r.state = .idle) (hp : r.prev = false)
    (hn : 1 ≤ b.nDeb) (hmid : mid.length = b.nDeb - 1) :
    loopRun b (edgeCheck mid false) r = closeIteration b { r with prev := true, dcnt := 0 } :=
  ((loopRun_edgeCheck false hs hp hn hmid).trans (loopStep_noise rfl (by simp only; omega))).trans
    (closeIteration_setState b { r with prev := true, dcnt := 0 } .confirming)

/-- While the button is held after its sample the loop stays in IDLE and ADVANCE_PERIOD (R73, R81). -/
theorem loopRun_held {b : Build} {r : Regs} (n : Nat) (hp : r.prev = true)
    (hs : r.state = .idle ∨ r.state = .advancePeriod) :
    (loopRun b (List.replicate n ⟨false, true⟩) r).prev = true ∧
      ((loopRun b (List.replicate n ⟨false, true⟩) r).state = .idle ∨
        (loopRun b (List.replicate n ⟨false, true⟩) r).state = .advancePeriod) := by
  induction n generalizing r with
  | zero => exact ⟨hp, hs⟩
  | succ n ih =>
    rw [List.replicate_succ, loopRun_cons]
    obtain hs | hs := hs
    · rw [loopStep_held hs hp]
      exact ih (closeIteration_prev _ _) (closeIteration_state _ _)
    · rw [loopStep_period true hs]
      exact ih hp (.inl rfl)

/-- `k + 1` quiet samples from the start of a period end its iteration number `k` (R70, R72). -/
theorem loopRun_quiet {b : Build} {r : Regs} (hs : r.state = .idle) (hw : r.wcnt = 0) {k : Nat} (hk : k < b.nWait) :
    loopRun b (List.replicate (k + 1) ⟨false, false⟩) r = closeIteration b { r with prev := false, wcnt := k } := by
  induction k with
  | zero => rw [List.replicate_one, loopRun_cons, loopRun_nil, loopStep_low hs, ← hw]
  | succ k ih =>
    rw [List.replicate_succ', loopRun_append, ih (by omega), closeIteration_of_lt hk, loopRun_cons, loopRun_nil,
      loopStep_low rfl, hs]

/-- A quiet period: `N_WAIT` samples and the periodic advance (R84). -/
theorem loopRun_quiet_period {b : Build} {r : Regs} (hn : 1 ≤ b.nWait) (hs : r.state = .idle) (hw : r.wcnt = 0) :
    loopRun b (List.replicate (b.nWait + 1) ⟨false, false⟩) r = { r with digit := bump r.digit, prev := false } := by
  obtain ⟨k, hk⟩ := Nat.exists_eq_add_of_le' hn
  rw [List.replicate_succ', loopRun_append, hk, loopRun_quiet hs hw (by omega),
    closeIteration_of_last (by simp only; omega), loopRun_cons, loopRun_nil, loopStep_period false rfl, hs, hw]

/-- `n` advances add `n` modulo 10 (R69). -/
theorem bump_add {d : Digit} (n : Nat) :
    bump (BitVec.ofNat 4 ((d.toNat + n) % 10)) = BitVec.ofNat 4 ((d.toNat + (n + 1)) % 10) := by
  rw [bump, BitVec.toNat_ofNat, Nat.mod_eq_of_lt (a := (d.toNat + n) % 10) (by omega), Nat.mod_add_mod, Nat.add_assoc]

theorem bump_bump (d : Digit) : bump (bump d) = BitVec.ofNat 4 ((d.toNat + 2) % 10) := bump_add 1

/-- Quiet periods advance the digit by their number (R84). -/
theorem loopRun_quiet_periods {b : Build} {r : Regs} (hn : 1 ≤ b.nWait) (hs : r.state = .idle) (hw : r.wcnt = 0)
    (K : Nat) :
    loopRun b (List.replicate ((K + 1) * (b.nWait + 1)) ⟨false, false⟩) r =
      { r with digit := BitVec.ofNat 4 ((r.digit.toNat + (K + 1)) % 10), prev := false } := by
  induction K with
  | zero => rw [Nat.zero_add, Nat.one_mul, loopRun_quiet_period hn hs hw]; rfl
  | succ K ih =>
    rw [Nat.succ_mul (K + 1), List.replicate_add, loopRun_append, ih]
    refine (loopRun_quiet_period (r := { r with digit := _, prev := false }) hn hs hw).trans ?_
    rw [bump_add]

/-! ## The statements -/

/-- Settles O50: the machine follows the loop, which stays in IDLE and ADVANCE_PERIOD while the button is held. -/
theorem heldButtonNeverRetriggers : Obligations.HeldButtonNeverRetriggers := by
  intro n s r q hb hr hin hp hst hs
  obtain ⟨t, ht, hAt⟩ := State.At.run ⟨rfl, hb, hr, hin, hs⟩ fun x hx => List.eq_of_mem_replicate hx ▸ rfl
  rw [List.length_replicate] at ht
  exact ⟨t, _, ht, hAt.regs, loopRun_held n hp hst⟩

/-- Settles O46: each quiet period is `N_WAIT` samples and one advance. -/
theorem quietPeriodsCountTheDigit : Obligations.QuietPeriodsCountTheDigit := by
  intro s r K q hb hr hin hst hw hK hs
  obtain ⟨hn, -⟩ := (Build.wf_iff _).mp hb
  obtain ⟨t, ht, hAt⟩ := State.At.run ⟨rfl, hb, hr, hin, hs⟩ fun x hx => List.eq_of_mem_replicate hx ▸ rfl
  rw [List.length_replicate] at ht
  refine ⟨t, ht, ?_, hAt.stim⟩
  obtain ⟨k, rfl⟩ := Nat.exists_eq_add_of_le' hK
  obtain ⟨-, -, -, hc⟩ := hin
  rw [hAt.regs, loopRun_quiet_periods hn hst hw, hst, hw, hc (by simp [hst])]

/-- Settles O47: the edge, the delay and the confirmation lead to the early advance, which ends the iteration. -/
theorem confirmedPressAdvancesEarly : Obligations.ConfirmedPressAdvancesEarly := by
  intro s r mid x q hb hr hin hst hp hmid hrst hx hs
  obtain ⟨-, hn, -⟩ := (Build.wf_iff _).mp hb
  have hAt : s.At s.build r (edgeCheck mid true ++ x :: q) := ⟨rfl, hb, hr, hin, by simp [hs, edgeCheck]⟩
  obtain ⟨u, hu, hAtu⟩ := hAt.run (edgeCheck_rst true hrst)
  rw [length_edgeCheck true hn hmid] at hu
  rw [loopRun_press hst hp hn hmid] at hAtu
  obtain ⟨t, ht, hAtt⟩ := hAtu.step hx
  rw [loopStep_early x.btn rfl] at hAtt
  exact ⟨u, t, hu, hAtu.regs, ht, hAtt.regs, hAtt.stim⟩

/-- Settles O48: the edge, the delay and a sample that is not asserted end the iteration. -/
theorem noiseLeavesTheDigit : Obligations.NoiseLeavesTheDigit := by
  intro s r mid q hb hr hin hst hp hmid hrst hs
  obtain ⟨-, hn, -⟩ := (Build.wf_iff _).mp hb
  have hAt : s.At s.build r (edgeCheck mid false ++ q) := ⟨rfl, hb, hr, hin, by simp [hs, edgeCheck]⟩
  obtain ⟨t, ht, hAtt⟩ := hAt.run (edgeCheck_rst false hrst)
  rw [length_edgeCheck false hn hmid] at ht
  rw [loopRun_noise hst hp hn hmid] at hAtt
  exact ⟨t, ht, hAtt.regs, hAtt.stim⟩

/-- Settles O49: in the last iteration the early advance leads to the periodic one, and the outputs settle between
them. -/
theorem doubleAdvance : Obligations.DoubleAdvance := by
  intro s r x y q hb hr hin hst hw hx hy hs
  obtain ⟨hn, -⟩ := (Build.wf_iff _).mp hb
  have hearly : loopStep s.build x.btn r = { r with digit := bump r.digit, state := .advancePeriod } :=
    (loopStep_early x.btn hst).trans (closeIteration_of_last (by simp only; omega))
  have hperiod : loopStep s.build y.btn { r with digit := bump r.digit, state := .advancePeriod } =
      { r with digit := BitVec.ofNat 4 ((r.digit.toNat + 2) % 10), state := .idle, wcnt := 0 } := by
    rw [loopStep_period y.btn rfl, bump_bump]
  obtain ⟨t, ht, hAtt⟩ := State.At.step ⟨rfl, hb, hr, hin, hs⟩ hx
  rw [hearly] at hAtt
  obtain ⟨u, hu, hAtu⟩ := hAtt.step hy
  rw [hperiod] at hAtu
  obtain ⟨r', p, hr', hp, hseg⟩ := everyStepShowsTheDigit s t ht
  cases hAtt.regs.symm.trans hr'
  exact ⟨t, u, p, ht, hp, hseg, hu, hAtu.regs⟩

/-- Settles O51: the failed check leaves `prev` = 1, and so does the periodic advance, so that the next IDLE sample is
read as held. -/
theorem missedPressAfterNoise : Obligations.MissedPressAfterNoise := by
  intro s r x q hb hr hin hph hst hd hx
  have hp : r.prev = true := hph.1 (.inl hst)
  have hnoise : loopStep s.build false r = closeIteration s.build { r with dcnt := 0 } :=
    loopStep_noise hst (by omega)
  refine ⟨fun hw hs => ?_, fun hw hs => ?_⟩
  · obtain ⟨t, ht, hAt⟩ := State.At.step ⟨rfl, hb, hr, hin, hs⟩ rfl
    rw [hnoise, closeIteration_of_lt (r := { r with dcnt := 0 }) hw] at hAt
    exact ⟨t, _, _, ht, hAt.fetch_held rfl hp⟩
  · obtain ⟨t, ht, hAt⟩ := State.At.step ⟨rfl, hb, hr, hin, hs⟩ rfl
    rw [hnoise, closeIteration_of_last (r := { r with dcnt := 0 }) (by simp only; omega)] at hAt
    obtain ⟨u, hu, hAtu⟩ := hAt.step hx
    rw [loopStep_period x.btn rfl] at hAtu
    exact ⟨t, u, _, _, ht, hu, hAtu.fetch_held rfl hp⟩

/-- Settles O52: the confirmation sample ends the iteration, or it starts the early advance, whose cycle does. -/
theorem edgeCheckEnds : Obligations.EdgeCheckEnds := by
  intro s r xs q hb hr hin hst hd hlen hrst hs
  obtain ⟨-, hn, -⟩ := (Build.wf_iff _).mp hb
  obtain ⟨mid, x, y, rfl, hmid⟩ := exists_eq_append_pair (n := s.build.nDeb - 1) (hlen.trans (by omega))
  have hAt : s.At s.build r ((mid ++ [x]) ++ y :: q) := ⟨rfl, hb, hr, hin, by simp [hs]⟩
  have hlast : ¬ s.build.nDeb - 1 + 1 < s.build.nDeb := by omega
  obtain ⟨t, ht, hAtt⟩ := hAt.run fun z hz => hrst z (by
    rw [List.append_cons]
    exact List.mem_append_left [y] hz)
  have hk : (mid ++ [x]).length = s.build.nDeb := by simp only [List.length_append, hmid, List.length_singleton]; omega
  rw [hk] at ht
  rw [loopRun_delay x hst hd hn hmid] at hAtt
  cases hx : x.btn with
  | false =>
    rw [hx, loopStep_noise (r := { r with dcnt := s.build.nDeb - 1 }) hst hlast] at hAtt
    exact ⟨_, t, _, Nat.le_succ _, ht, hAtt.regs, closeIteration_state _ _⟩
  | true =>
    rw [hx, loopStep_pass (r := { r with dcnt := s.build.nDeb - 1 }) hst hlast] at hAtt
    obtain ⟨u, hu, hAtu⟩ := hAtt.step (hrst y (by simp))
    rw [loopStep_early y.btn rfl] at hAtu
    exact ⟨_, u, _, le_rfl, run_add_one ht hu, hAtu.regs, closeIteration_state _ _⟩

end Sys2Proof.Machine
end

section
/-! SUPPORT. The encoder on decoded words, the nine rows of the condition map, the letters of the ROM, and the
statements about the encoding and about the ROM and its port that follow from them. -/

namespace Sys2Proof.Machine

/-! ## The words -/

/-- The address of the row that an address selects is that address (R48). -/
theorem encode_decodeRom (d : Digit) : encode (decodeRom d) = some (.romAddr d) := by
  revert d; decide

/-- The word of the transition that the fields select carries those fields (R45, R47). -/
theorem encode_selectRow (r : Bool) (c : Fsm) (b p w d : Bool) :
    encode (selectRow r c b p w d) = some (.condWord (packCond r c b p w d)) := by
  cases r with
  | true => rfl
  | false =>
    cases c with
    | idle => cases b <;> cases p <;> rfl
    | confirming => cases d <;> cases b <;> rfl
    | advanceEarly | advancePeriod => rfl

/-- A condition word is made of its seven bits (R45). -/
theorem packCond_getLsbD (c : CondWord) :
    packCond (c.getLsbD 6) (Fsm.ofBits (c.getLsbD 5) (c.getLsbD 4)) (c.getLsbD 3) (c.getLsbD 2) (c.getLsbD 1)
      (c.getLsbD 0) = c := by
  revert c; decide

theorem encode_decodeCond (c : CondWord) : encode (decodeCond c) = some (.condWord c) := by
  rw [decodeCond, encode_selectRow, packCond_getLsbD]

/-- A transition has its row in the condition map (R47). -/
theorem exists_row_selectRow (r : Bool) (c : Fsm) (b p w d : Bool) :
    ∃ q ∈ condRows, (selectRow r c b p w d).row = some q := by
  have at_index {i : Instr} (k : Fin 9) (h : i.row = condRows[k]?) : ∃ q ∈ condRows, i.row = some q :=
    ⟨condRows[k], List.getElem_mem _, h.trans (List.getElem?_eq_getElem _)⟩
  cases r with
  | true => exact at_index 0 rfl
  | false =>
    cases c with
    | idle =>
      cases b
      · exact at_index 1 rfl
      · cases p
        · exact at_index 3 rfl
        · exact at_index 2 rfl
    | confirming =>
      cases d
      · exact at_index 4 rfl
      · cases b
        · exact at_index 6 rfl
        · exact at_index 5 rfl
    | advanceEarly => exact at_index 7 rfl
    | advancePeriod => exact at_index 8 rfl

/-- A row selects the words whose transition has its `match` value (R47). -/
theorem selects_condWord_iff {q : Row} (hq : q ∈ condRows) (c : CondWord) :
    q.selects .condWord c.toNat = true ↔ (decodeCond c).row.map Row.value = some q.value :=
  (by decide : ∀ c : CondWord, ∀ q ∈ condRows,
    (q.selects .condWord c.toNat = true ↔ (decodeCond c).row.map Row.value = some q.value)) c q hq

/-- No two rows of the condition map have the same `match` value (R47). -/
theorem eq_of_value_eq {q r : Row} (hq : q ∈ condRows) (hr : r ∈ condRows) (h : q.value = r.value) : q = r :=
  List.inj_on_of_nodup_map (by decide : (condRows.map Row.value).Nodup) hq hr h

/-! ## The letters -/

/-- The letters of a pattern (R33, R66). -/
def litSegments (p : Pattern) : List Segment := [.a, .b, .c, .d, .e, .f, .g].filter (isLit p)

theorem mem_litSegments {p : Pattern} {x : Segment} : x ∈ litSegments p ↔ isLit p x = true := by
  rw [litSegments, List.mem_filter]
  refine and_iff_right ?_
  cases x <;> decide

/-- A pattern is the pattern of one digit at most (R67). -/
theorem romLookup_injective {d e : Digit} {p : Pattern} (hd : romLookup d = some p) (he : romLookup e = some p) :
    d = e :=
  (by decide : ∀ d e : Digit, romLookup d ≠ none → romLookup d = romLookup e → d = e) d e (hd ▸ nofun)
    (hd.trans he.symm)

/-- The drive value is the complement: its mask covers all seven bits (R86). -/
theorem driveValue_eq_not (p : Pattern) : driveValue p = ~~~p := BitVec.and_allOnes

/-! ## The statements -/

/-- Settles O1: each operation is the one that the fields of its word, or its address, select. -/
theorem decodeInvertsEncode : Obligations.DecodeInvertsEncode := by
  intro i h
  have cond {r : Bool} {c : Fsm} {b p w d : Bool} (hi : selectRow r c b p w d = i) :
      ∃ e, encode i = some e ∧ decode e = i :=
    ⟨.condWord (packCond r c b p w d), hi ▸ encode_selectRow r c b p w d, (decodeCond_packCond r c b p w d).trans hi⟩
  have rom {d : Digit} (hi : decodeRom d = i) : ∃ e, encode i = some e ∧ decode e = i :=
    ⟨.romAddr d, hi ▸ encode_decodeRom d, hi⟩
  cases i with
  | reset c b p w d => exact cond (r := true) rfl
  | tIdleLow p w d => exact cond (r := false) (c := .idle) (b := false) rfl
  | tIdleHeld w d => exact cond (r := false) (c := .idle) (b := true) (p := true) rfl
  | tIdleEdge w d => exact cond (r := false) (c := .idle) (b := true) (p := false) rfl
  | tConfWait b p w => exact cond (r := false) (c := .confirming) (d := false) rfl
  | tConfPass p w => exact cond (r := false) (c := .confirming) (b := true) (d := true) rfl
  | tConfNoise p w => exact cond (r := false) (c := .confirming) (b := false) (d := true) rfl
  | tAdvEarly b p w d => exact cond (r := false) (c := .advanceEarly) rfl
  | tAdvPeriod b p w d => exact cond (r := false) (c := .advancePeriod) rfl
  | seg0 => exact rom (d := 0) rfl
  | seg1 => exact rom (d := 1) rfl
  | seg2 => exact rom (d := 2) rfl
  | seg3 => exact rom (d := 3) rfl
  | seg4 => exact rom (d := 4) rfl
  | seg5 => exact rom (d := 5) rfl
  | seg6 => exact rom (d := 6) rfl
  | seg7 => exact rom (d := 7) rfl
  | seg8 => exact rom (d := 8) rfl
  | seg9 => exact rom (d := 9) rfl
  | romOodA => exact rom (d := 10) rfl
  | romOodB => exact rom (d := 11) rfl
  | romOodC => exact rom (d := 12) rfl
  | romOodD => exact rom (d := 13) rfl
  | romOodE => exact rom (d := 14) rfl
  | romOodF => exact rom (d := 15) rfl
  | render | portMerge => cases h

/-- Settles O2, format by format. -/
theorem encodeInvertsDecode : Obligations.EncodeInvertsDecode
  | .romAddr d => encode_decodeRom d
  | .condWord c => encode_decodeCond c

/-- Settles O3: a row selects the words whose transition has its `match` value, which no other row has. -/
theorem everyConditionWordHasOneRow : Obligations.EveryConditionWordHasOneRow := by
  intro c
  obtain ⟨r, hmem, hr⟩ : ∃ r ∈ condRows, (decodeCond c).row = some r := exists_row_selectRow _ _ _ _ _ _
  refine ⟨⟨r, hmem, hr, mnemonic_of_row hr⟩, fun q hq => ?_⟩
  rw [selects_condWord_iff hq, hr, Option.map_some, Option.some_inj, Option.some_inj]
  exact ⟨eq_of_value_eq hmem hq, congrArg Row.value⟩

/-- Settles O5, word by word. -/
theorem specWordsDecode : Obligations.SpecWordsDecode :=
  ⟨rfl, rfl, rfl, rfl, rfl, rfl, rfl, rfl, rfl, rfl, rfl⟩

/-- Settles O6: the decoder compares the byte with the format's range, and a byte in range keeps its bits. -/
theorem rawBytesAreRejectedByName : Obligations.RawBytesAreRejectedByName := by
  refine fun b => ⟨fun h => if_neg h.not_gt, fun h => ?_, fun h => if_neg h.not_gt, fun h => ?_⟩
  · rw [← BitVec.ofNat_toNat]
    exact if_pos h
  · rw [← BitVec.ofNat_toNat]
    exact if_pos h

/-- Settles O11: the letters and the derived columns, read off the ten patterns. -/
theorem tableMatchesTheSourceLetters : Obligations.TableMatchesTheSourceLetters := by
  refine ⟨fun row h => ?_, fun row h => ?_⟩
  · have hlit : (romLookup row.1).map litSegments = some row.2 := by
      revert row; decide
    obtain ⟨p, hp, hrow⟩ := Option.map_eq_some_iff.mp hlit
    exact ⟨p, romRead_of_some hp, fun x => hrow ▸ mem_litSegments.symm⟩
  · rw [romRead_eq_ok]
    revert row; decide

/-- Settles O12: a pattern belongs to one digit, and the complement of a pattern to one pattern. -/
theorem patternsAreDistinct : Obligations.PatternsAreDistinct := by
  intro d e p q hd he
  have same (h : p = q) : d = e := romLookup_injective (romRead_eq_ok.mp hd) (romRead_eq_ok.mp (h ▸ he))
  refine ⟨same, fun h => same (BitVec.not_inj.mp ?_)⟩
  rw [← driveValue_eq_not, ← driveValue_eq_not]
  exact h

/-- Settles O32: the row starts with the drive value of the digit. -/
theorem portMergeFaultsWhenSegNDoes : Obligations.PortMergeFaultsWhenSegNDoes :=
  ⟨fun s r hb hr hd => by rw [exec_portMerge, withDrive_of_ge hb hr hd],
    fun s hb hr => ⟨_, by rw [exec_portMerge, withDrive_of_none hb hr]⟩⟩

/-- Settles O33: the two forms have the same bits, on narrower ports too. -/
theorem mergeFormsAgree : Obligations.MergeFormsAgree := fun _ segN port _ => mergeSlice_eq_mergeMasked segN port

end Sys2Proof.Machine
end

section
/-! SUPPORT. What a row leaves unchanged, the cycles in which the button or the counter widths play no part, the placing
of a word before the block, and the statements that follow from them. -/

namespace Sys2Proof.Machine

/-! ## The inputs a cycle does not read -/

/-- The cycles of the loop in which the button plays no part (R114). -/
theorem loopStep_of_blind {b : Build} {r : Regs} (x y : Bool)
    (h : r.state = .advanceEarly ∨ r.state = .advancePeriod ∨ (r.state = .confirming ∧ r.dcnt + 1 < b.nDeb)) :
    loopStep b x r = loopStep b y r := by
  obtain hs | hs | ⟨hs, hd⟩ := h
  · rw [loopStep_early x hs, loopStep_early y hs]
  · rw [loopStep_period x hs, loopStep_period y hs]
  · rw [loopStep_wait x hs hd, loopStep_wait y hs hd]

/-- The state with other inputs queued. -/
def State.withStim (s : State) (xs : List Stim) : State := { s with stim := xs }

/-- Two inputs with the same `rst` take the same cycle where the loop does the same with both buttons. -/
theorem step_withStim_congr {s : State} {r : Regs} {x y : Stim} {q : List Stim} (hr : s.regs = some r)
    (hrst : x.rst = y.rst)
    (hloop : y.rst = false → r.dcnt ≤ s.build.nDeb - 1 → loopStep s.build x.btn r = loopStep s.build y.btn r) :
    step (s.withStim (x :: q)) = step (s.withStim (y :: q)) := by
  cases hb : s.build.wf with
  | false => rw [step_of_not_wf (s := s.withStim (x :: q)) hb, step_of_not_wf (s := s.withStim (y :: q)) hb]
  | true =>
    cases hy : y.rst with
    | true =>
      rw [step_of_rst (s := s.withStim (x :: q)) hb (hrst.trans hy), step_of_rst (s := s.withStim (y :: q)) hb hy]
      rfl
    | false =>
      have hx := hrst.trans hy
      cases hcnt : checkCounters s.build r with
      | error f =>
        rw [step_of_fetch_fault (fetch_of_error (s := s.withStim (x :: q)) hb hr hx hcnt),
          step_of_fetch_fault (fetch_of_error (s := s.withStim (y :: q)) hb hr hy hcnt)]
      | ok u =>
        obtain ⟨hw, hc⟩ := checkCounters_eq_ok.mp hcnt
        rcases Nat.lt_or_ge 9 r.digit.toNat with hd | hd
        · rw [step_of_digit_ge (s := s.withStim (x :: q)) hb hr hw hc hx hd,
            step_of_digit_ge (s := s.withStim (y :: q)) hb hr hw hc hy hd]
        · obtain ⟨p, hp⟩ := romLookup_of_le (loopStep_digit_le s.build y.btn hd)
          have heq : loopStep (s.withStim (x :: q)).build (s.withStim (x :: q)).stimNow.btn r =
              loopStep s.build y.btn r := hloop hy hc
          rw [step_eq_loopStep (s := s.withStim (x :: q)) hb hr hw hc hx hd (heq ▸ hp),
            step_eq_loopStep (s := s.withStim (y :: q)) hb hr hw hc hy hd hp, heq]
          rfl

/-! ## A placed word -/

section Placed

variable (s : State) (nbits w : Nat)

/-- The registers of a placed word: its fields, and the counters at 0. -/
def placedRegs : Regs where
  digit := if nbits ≠ 7 ∧ w < 16 then BitVec.ofNat 4 w else (s.regs.getD Regs.reset).digit
  prev := (BitVec.ofNat 7 w).getLsbD 2
  state := Fsm.ofBits ((BitVec.ofNat 7 w).getLsbD 5) ((BitVec.ofNat 7 w).getLsbD 4)
  wcnt := 0
  dcnt := 0

theorem withFetchWord_regs : (s.withFetchWord nbits w).regs = some (placedRegs s nbits w) := rfl

theorem withFetchWord_wf : (s.withFetchWord nbits w).build.wf = true := by
  have length (x : Bool) : 1 ≤ (if x then 1 else 2) ∧ (if x then 1 else 2) ≤ 2 ^ 1 := by cases x <;> decide
  exact (Build.wf_iff _).mpr ⟨(length _).1, (length _).1, ⟨(length _).2, le_rfl⟩, ⟨(length _).2, le_rfl⟩, Nat.le_succ 7⟩

/-- A counter at 0 is at its last value in a placed length of 1, and is not in one of 2 (R46). -/
theorem zero_beq_placedLength (x : Bool) : (0 == (if x then 1 else 2) - 1) = x := by cases x <;> rfl

theorem wlast_withFetchWord : wlast (s.withFetchWord nbits w).build (placedRegs s nbits w) =
    (BitVec.ofNat 7 w).getLsbD 1 := zero_beq_placedLength _

theorem dlast_withFetchWord : dlast (s.withFetchWord nbits w).build (placedRegs s nbits w) =
    (BitVec.ofNat 7 w).getLsbD 0 := zero_beq_placedLength _

/-- The placed word is the condition word of the next cycle (R45, R47). -/
theorem fetch_withFetchWord : fetch (s.withFetchWord nbits w) = .next (decodeCond (BitVec.ofNat 7 w)) := by
  rw [fetch_of_some (withFetchWord_wf s nbits w) (withFetchWord_regs s nbits w) (.inr ⟨Nat.zero_le _, Nat.zero_le _⟩),
    wlast_withFetchWord, dlast_withFetchWord]
  rfl

variable {nbits w} (hn : nbits ≠ 7) (hw : w < 16)
include hw

/-- A word below 16 has no `rst` bit and no bit of the state. -/
theorem placed_idle : (s.withFetchWord nbits w).stimNow.rst = false ∧ (placedRegs s nbits w).state = .idle := by
  have h : ∀ v < 16, (BitVec.ofNat 7 v).getLsbD 6 = false ∧
      Fsm.ofBits ((BitVec.ofNat 7 v).getLsbD 5) ((BitVec.ofNat 7 v).getLsbD 4) = .idle := by decide
  exact h w hw

theorem placed_not_advances : ¬ (placedRegs s nbits w).Advances := by
  simp [Regs.Advances, (placed_idle s hw).2]

include hn

theorem placed_digit : (placedRegs s nbits w).digit = BitVec.ofNat 4 w := if_pos ⟨hn, hw⟩

theorem decodeTableWord_of_lt : decodeTableWord nbits w = some (decodeRom (BitVec.ofNat 4 w)) := by
  simp [decodeTableWord, hn, hw]

end Placed

/-! ## The statements -/

/-- Settles O44: a reset cycle runs no transition of the loop, and the others are blind in the loop. -/
theorem blindCyclesIgnoreTheButton : Obligations.BlindCyclesIgnoreTheButton := by
  intro s r x q hr hs h
  have hsame : s.withStim (x :: q) = s := by rw [State.withStim, ← hs]
  have hflip : step (s.withStim (⟨x.rst, !x.btn⟩ :: q)) = step (s.withStim (x :: q)) := by
    refine step_withStim_congr hr rfl fun hx hc => loopStep_of_blind _ _ ?_
    obtain hrst | he | hp | ⟨hst, hne⟩ := h
    · exact absurd (hx.symm.trans hrst) nofun
    · exact .inl he
    · exact .inr (.inl hp)
    · exact .inr (.inr ⟨hst, by omega⟩)
  exact hflip.trans (congrArg step hsame)

/-- Settles O45: all that a cycle can do is said without the widths. -/
theorem counterWidthsAreNotObservable : Obligations.CounterWidthsAreNotObservable := by
  intro s t w v _ hb' h
  obtain ⟨-, r', p, hcyc, hp, rfl⟩ := step_eq_next_iff.mp h
  exact step_eq_next_iff.mpr ⟨hb', r', p, hcyc, hp, rfl⟩

/-- Settles O40, by the form of the row. -/
theorem frameOfEveryRow : Obligations.FrameOfEveryRow := by
  intro i s t h
  cases execForm i with
  | reset c b p w d =>
    obtain ⟨-, rfl⟩ := exec_reset_eq_next.mp h
    exact ⟨rfl, rfl, rfl, rfl, fun _ => ⟨rfl, rfl, rfl⟩, nofun, nofun, nofun⟩
  | transition f c hc hf =>
    obtain ⟨-, r, r', -, -, rfl⟩ := transition_eq_next.mp (hf s ▸ h)
    exact ⟨rfl, rfl, rfl, rfl, fun _ => ⟨rfl, rfl, rfl⟩, fun ⟨d, hd⟩ => absurd (hc.symm.trans hd) nofun,
      fun hi => absurd (hi ▸ hc) nofun, fun hi => absurd (hi ▸ hc) nofun⟩
  | lookup d =>
    rw [exec_decodeRom] at h
    obtain ⟨-, p, -, rfl⟩ := romRow_eq_next.mp h
    have hd := encode_decodeRom d
    exact ⟨rfl, rfl, rfl, rfl, fun ⟨c, hc⟩ => absurd (hc.symm.trans hd) nofun,
      fun _ => ⟨rfl, rfl, rfl⟩, fun hi => absurd (hi ▸ hd) nofun, fun hi => absurd (hi ▸ hd) nofun⟩
  | render =>
    rw [exec_render] at h
    obtain ⟨-, r, p, -, -, ⟨⟩⟩ := withDrive_eq_next.mp h
    exact ⟨rfl, rfl, rfl, rfl, nofun, nofun, fun _ => ⟨rfl, rfl, rfl⟩, nofun⟩
  | portMerge =>
    rw [exec_portMerge] at h
    obtain ⟨-, r, p, -, -, ⟨⟩⟩ := withDrive_eq_next.mp h
    exact ⟨rfl, rfl, rfl, rfl, nofun, nofun, nofun, fun _ => ⟨rfl, rfl, rfl⟩⟩

/-- Settles O43, row by row: a row that writes a counter is one of those named, and each other row leaves the counter
as it was. -/
theorem counterWriters : Obligations.CounterWriters := by
  intro i s t r r' h hr hr'
  cases i with
  | reset c b p w d => simp
  | tIdleLow p w d =>
    obtain ⟨-, -, rfl⟩ := (exec_tIdleLow_eq_next hr).mp h
    cases hr'; simp
  | tIdleHeld w d =>
    obtain ⟨-, -, rfl⟩ := (exec_tIdleHeld_eq_next hr).mp h
    cases hr'; simp
  | tIdleEdge w d =>
    obtain ⟨-, rfl⟩ := (exec_tIdleEdge_eq_next hr).mp h
    cases hr'; simp
  | tConfWait b p w =>
    obtain ⟨-, -, rfl⟩ := (exec_tConfWait_eq_next hr).mp h
    cases hr'; simp
  | tConfPass p w =>
    obtain ⟨-, -, rfl⟩ := (exec_tConfPass_eq_next hr).mp h
    cases hr'; simp
  | tConfNoise p w => simp
  | tAdvEarly b p w d =>
    obtain ⟨-, -, n, -, rfl⟩ := (exec_tAdvEarly_eq_next hr).mp h
    cases hr'; simp
  | tAdvPeriod b p w d =>
    obtain ⟨-, n, -, rfl⟩ := (exec_tAdvPeriod_eq_next hr).mp h
    cases hr'; simp
  | seg0 | seg1 | seg2 | seg3 | seg4 | seg5 | seg6 | seg7 | seg8 | seg9 | romOodA | romOodB | romOodC | romOodD
  | romOodE | romOodF | render | portMerge =>
    have hk : some r' = some r := hr' ▸ hr ▸ exec_keeps_regs h nofun
    cases hk; exact ⟨fun hne => absurd rfl hne, fun hne => absurd rfl hne⟩

/-- Settles O55: what each half of a cycle does after the first reset and before it. -/
theorem stepRunsTheDecodedInstruction : Obligations.StepRunsTheDecodedInstruction := by
  refine ⟨fun s r hb hr h => ?_, fun s r hb hr hi hout => ?_, fun s hb hr hi => ?_, fun t => rfl,
    fun t r p hb hr hp => settle_of_some hb hr (romRead_eq_ok.mp hp)⟩
  · rw [step, fetch_of_some hb hr h, andThen_next, condWord, decodeCond_packCond]
  · rcases checkCounters_of_out (b := s.build) (r := r) (by omega) with e | e
    · exact ⟨_, _, step_of_fetch_fault (fetch_of_error hb hr hi e)⟩
    · exact ⟨_, _, step_of_fetch_fault (fetch_of_error hb hr hi e)⟩
  · rw [step, fetch_of_none_rst hb hr hi, andThen_next]
    rfl

/-- Settles O56: the placed fields are those of the word, and a word below 16 selects an IDLE row, which keeps the
digit. -/
theorem placedWordRunsNext : Obligations.PlacedWordRunsNext := by
  intro s nbits w
  have hb := withFetchWord_wf s nbits w
  have hr := withFetchWord_regs s nbits w
  refine ⟨fun _ => fetch_withFetchWord s nbits w, decodeTableWord_of_lt, fun hn hw => ?_, fun hn hlo hhi => ?_⟩
  · have hw16 : w < 16 := by omega
    obtain ⟨hi, -⟩ := placed_idle s (nbits := nbits) hw16
    have hdigit := placed_digit s hn hw16
    have hd : (placedRegs s nbits w).digit.toNat ≤ 9 := by
      rw [hdigit, BitVec.toNat_ofNat]
      omega
    have hkeep := (loopStep_digit_of_not_advances (s.withFetchWord nbits w).build (s.withFetchWord nbits w).stimNow.btn
      (placed_not_advances s (nbits := nbits) hw16)).trans hdigit
    obtain ⟨p, hp⟩ := romLookup_of_le (hdigit ▸ hd)
    exact ⟨_, _, p, step_eq_loopStep hb hr (Nat.zero_le _) (Nat.zero_le _) hi hd (hkeep ▸ hp), rfl, hkeep,
      romRead_of_some hp, rfl⟩
  · obtain ⟨hi, -⟩ := placed_idle s (nbits := nbits) hhi
    have hdigit := placed_digit s hn hhi
    have hd : 10 ≤ (placedRegs s nbits w).digit.toNat := by
      rw [hdigit, BitVec.toNat_ofNat]
      omega
    rw [step_of_digit_ge hb hr (Nat.zero_le _) (Nat.zero_le _) hi hd, Regs.digitFault,
      if_neg (placed_not_advances s hhi), hdigit]

end Sys2Proof.Machine
end
